-- ==== Sys2Proof/Word.lean ====
section
/-! DEFINITION. The word types of the block (R7): what the manual treats as bits. Integers (coordinates, sizes,
indexes) are plain `Int` and `Nat`, because all arithmetic on them is exact (R8). -/

namespace Sys2Proof

/-- A Palette Index, a framebuffer cell, a byte of a descriptor (R7, R21). -/
abbrev Byte := BitVec 8

/-- A lane selector, one atlas cell (R7, R32). -/
abbrev Lane := BitVec 2

/-- A packed colour code (R7, R54). -/
abbrev Code := BitVec 32

/-- One of the four words `W0` to `W3` of a descriptor (R80). -/
abbrev Word := BitVec 32

/-- A command descriptor `D[127:0]` (R80). -/
abbrev Descriptor := BitVec 128

/-- The descriptor with the words `W0`, `W1`, `W2`, `W3`, `W0` least significant (R80). -/
def descriptorOfWords (w0 w1 w2 w3 : Word) : Descriptor := w3 ++ w2 ++ w1 ++ w0

end Sys2Proof
end

