-- ==== Sys2Proof/Config.lean ====
section
/-! DEFINITION. The fixed constants of the block (R5), its configuration parameters (R6) and the free values:
constants without a body, of which nothing can be proved. -/

namespace Sys2Proof

/-- `TILE`: a tile is 8 by 8 pixels (R5). -/
abbrev tileSize : Nat := 8

/-- `TILES_PER_ROW`: the literal 32, whatever the atlas width (R5, C1). -/
abbrev tilesPerRow : Nat := 32

/-- `LANES`: byte lanes in a colour code (R5). -/
abbrev laneCount : Nat := 4

/-- `TRANSPARENT`: the colour value that means "write nothing" (R5). -/
abbrev transparent : Byte := 255#8

/-- `LANE_DIV`: the loader's divisor (R5, R120). -/
abbrev laneDiv : Nat := 64

/-- `CUBE`: the number of palette indices that denote a colour (R5). -/
abbrev cubeSize : Nat := 216

/-- The configuration parameters of one instance (R6), fixed for its life: no command and no host action changes
them (R43). The atlas is held as the list of its known cells, by cell index (log 3). -/
structure Params where
  /-- `W`: atlas width in pixels. -/
  w : Nat
  /-- `H`: atlas height in pixels. -/
  h : Nat
  /-- `Wf`: framebuffer width in pixels. -/
  wf : Nat
  /-- `Hf`: framebuffer height in pixels. -/
  hf : Nat
  /-- `ATLAS`: the known cells, (cell index, lane selector); the first entry of an index counts. -/
  atlas : List (Nat × Lane)
  /-- `PERSIST_ACROSS_FRAMES` (R194, D17). -/
  persist : Bool
  deriving DecidableEq, Repr

/-- What R6 asks of a configuration: `W` and `H` multiples of 8 (zero allowed), `Wf >= 1`, `Hf >= 1`. -/
def Params.legal (p : Params) : Bool :=
  p.w % tileSize == 0 && p.h % tileSize == 0 && decide (1 ≤ p.wf) && decide (1 ≤ p.hf)

/-- The number of framebuffer cells, `Wf*Hf` (R21). -/
def Params.cells (p : Params) : Nat := p.wf * p.hf

/-- The number of atlas cells, `W*H` (R32). -/
def Params.atlasCells (p : Params) : Nat := p.w * p.h

/-- FREE VALUE: what framebuffer cell `cell` holds after draw number `draw` of unspecified contents
(R40: "each cell independently any value in 0 to 255, not necessarily the same after two resets"; log 4). -/
opaque Config.freeCell (draw cell : Nat) : Byte

/-- FREE VALUE: the lane selector of an atlas cell that the configuration does not list (log 3). -/
opaque Config.freeLane (cell : Nat) : Lane

/-- The configuration of `State.reset`. DESIGN CHOICE (log 2): R6 gives none for `Wf`, `Hf` (here 8 by 8);
256 by 256 is "the document's own example configuration" of the atlas, none of whose cells is known here. -/
def Params.initial : Params :=
  { w := 256, h := 256, wf := 8, hf := 8, atlas := [], persist := true }

end Sys2Proof
end

