-- ==== Sys2Proof/Syntax.lean ====
section
/-! DEFINITION. The four commands of `STB-1`, one constructor per row of spec/opcode_table.json, with their decoded
operands (R86): coordinates and sizes are integers, the tile index and the scale natural numbers, colours and colour
codes bit vectors, flags Booleans. -/

namespace Sys2Proof

/-- The commands. `x y w h tile scale` are the integers of R86; `color`, `code` are the bits the engine stores or
shifts; `mx my off` are the flags. -/
inductive Instr where
  /-- FILL (R130): the whole canvas. -/
  | fill (color : Byte)
  /-- FILLRECT (R131): a clipped opaque rectangle. -/
  | fillrect (x y w h : Int) (color : Byte) (off : Bool)
  /-- BLIT (R140): one tile, mirrored, scaled, clipped, recoloured. -/
  | blit (x y : Int) (tile : Nat) (code : Code) (mx my : Bool) (scale : Nat) (off : Bool)
  /-- SCROLLTO (R160): the scroll registers. -/
  | scrollto (x y : Int)
  deriving DecidableEq, Repr

end Sys2Proof
end

