-- ==== Sys2Proof/WellFormed.lean ====
section
/-! DEFINITION. Which command terms have a descriptor: every operand fits its field (R7, R92). Colours, codes and
flags fit by their types. -/

namespace Sys2Proof

/-- A coordinate or a size fits 16 bits of two's complement: -32768 to 32767 (R92). -/
def fitsCoord (v : Int) : Bool := decide (-32768 ≤ v ∧ v ≤ 32767)

/-- A tile index fits 16 unsigned bits: 0 to 65535 (R92). -/
def fitsTile (t : Nat) : Bool := decide (t ≤ 65535)

/-- A scale fits 8 unsigned bits: 0 to 255 (R92; 0 is encodable and faults when executed, R90). -/
def fitsScale (k : Nat) : Bool := decide (k ≤ 255)

/-- Every operand fits its field (R92). -/
def Instr.wellFormed : Instr → Bool
  | .fill _ => true
  | .fillrect x y w h _ _ => fitsCoord x && fitsCoord y && fitsCoord w && fitsCoord h
  | .blit x y tile _ _ _ scale _ => fitsCoord x && fitsCoord y && fitsTile tile && fitsScale scale
  | .scrollto x y => fitsCoord x && fitsCoord y

end Sys2Proof
end

