-- ==== Sys2Proof/Decode.lean ====
section
/-! DEFINITION. Descriptor to command and back (30_encoding.md): the mask and match of each format, a decoder that is
total and names why it rejects, the encoder written from the word pictures of R82 to R85, the byte layout of a
descriptor in byte-addressed host memory (R55), and the host's `decodeTableWord`. -/

namespace Sys2Proof

/-- A row of the opcode table: a descriptor spells the command iff `D & mask = pattern` (R88). -/
structure Format where
  mask : Descriptor
  pattern : Descriptor
  deriving DecidableEq, Repr

/-- Format F, used by FILL (R82). -/
def formatF : Format :=
  ⟨0xFFFFFFFFFFFFFFFFFFFFFFFFFFFFFF00#128, 0x00000000000000000000000001000000#128⟩

/-- Format R, used by FILLRECT (R83). -/
def formatR : Format :=
  ⟨0xFFFFFFFF0000000000000000FFFBFF00#128, 0x00000000000000000000000002000000#128⟩

/-- Format B, used by BLIT (R84). -/
def formatB : Format :=
  ⟨0x00000000FFFF000000000000FFF800FF#128, 0x00000000000000000000000003000000#128⟩

/-- Format S, used by SCROLLTO (R85). -/
def formatS : Format :=
  ⟨0xFFFFFFFFFFFFFFFF00000000FFFFFFFF#128, 0x00000000000000000000000004000000#128⟩

/-- `D & mask = match` (R88). -/
def spells (f : Format) (d : Descriptor) : Bool := d &&& f.mask == f.pattern

/-- The field `OPCODE`, `D[31:24]` (R81). -/
def opcodeField (d : Descriptor) : Byte := d.extractLsb' 24 8
/-- The field `OFF`, `D[18]` (R81). -/
def offField (d : Descriptor) : Bool := d.getLsbD 18
/-- The field `MY`, `D[17]` (R81). -/
def myField (d : Descriptor) : Bool := d.getLsbD 17
/-- The field `MX`, `D[16]` (R81). -/
def mxField (d : Descriptor) : Bool := d.getLsbD 16
/-- The field `SCALE`, `D[15:8]` (R81). -/
def scaleField (d : Descriptor) : Byte := d.extractLsb' 8 8
/-- The field `COLOR`, `D[7:0]` (R81). -/
def colorField (d : Descriptor) : Byte := d.extractLsb' 0 8
/-- The field `X`, `D[47:32]` (R81). -/
def xField (d : Descriptor) : BitVec 16 := d.extractLsb' 32 16
/-- The field `Y`, `D[63:48]` (R81). -/
def yField (d : Descriptor) : BitVec 16 := d.extractLsb' 48 16
/-- The field `RW`, `D[79:64]` (R81). -/
def rwField (d : Descriptor) : BitVec 16 := d.extractLsb' 64 16
/-- The field `TILE`, `D[79:64]` (R81). -/
def tileField (d : Descriptor) : BitVec 16 := d.extractLsb' 64 16
/-- The field `RH`, `D[95:80]` (R81). -/
def rhField (d : Descriptor) : BitVec 16 := d.extractLsb' 80 16
/-- The field `CODE`, `D[127:96]` (R81). -/
def codeField (d : Descriptor) : Code := d.extractLsb' 96 32

/-- Why a descriptor is illegal (R89). Either reason raises ILLEGAL_CMD when the engine executes it (R172). -/
inductive Illegal where
  /-- `OPCODE` is 0x00 or 0x05 to 0xFF. -/
  | unassignedOpcode (opcode : Byte)
  /-- `OPCODE` is 0x01 to 0x04 and a bit its format requires to be zero is one. -/
  | reservedBits (opcode : Byte)
  deriving DecidableEq, Repr

/-- The reason an illegal descriptor is illegal (R89). -/
def illegalReason (d : Descriptor) : Illegal :=
  if 1 ≤ (opcodeField d).toNat ∧ (opcodeField d).toNat ≤ 4 then .reservedBits (opcodeField d)
  else .unassignedOpcode (opcodeField d)

/-- The decoder (R86, R88): total; exactly one command with its operands, or the reason it is illegal. -/
def decode (d : Descriptor) : Except Illegal Instr :=
  if spells formatF d then .ok (.fill (colorField d))
  else if spells formatR d then
    .ok (.fillrect (xField d).toInt (yField d).toInt (rwField d).toInt (rhField d).toInt
      (colorField d) (offField d))
  else if spells formatB d then
    .ok (.blit (xField d).toInt (yField d).toInt (tileField d).toNat (codeField d)
      (mxField d) (myField d) (scaleField d).toNat (offField d))
  else if spells formatS d then .ok (.scrollto (xField d).toInt (yField d).toInt)
  else .error (illegalReason d)

/-- One flag bit (R81). -/
def flagBit (b : Bool) : BitVec 1 := BitVec.ofBool b

/-- The encoder (R92), word by word as the pictures of R82 to R85 have it: every operand in its field, the opcode of
R87, zero everywhere else. It is meant for well-formed commands; an operand that does not fit is cut to its field,
and the assembler (`assembleInstr`) refuses it first. -/
def encode : Instr → Descriptor
  | .fill color => descriptorOfWords (0x01#8 ++ 0#16 ++ color) 0 0 0
  | .fillrect x y w h color off =>
    descriptorOfWords (0x02#8 ++ 0#5 ++ flagBit off ++ 0#2 ++ 0#8 ++ color)
      (BitVec.ofInt 16 y ++ BitVec.ofInt 16 x) (BitVec.ofInt 16 h ++ BitVec.ofInt 16 w) 0
  | .blit x y tile code mx my scale off =>
    descriptorOfWords
      (0x03#8 ++ 0#5 ++ flagBit off ++ flagBit my ++ flagBit mx ++ BitVec.ofNat 8 scale ++ 0#8)
      (BitVec.ofInt 16 y ++ BitVec.ofInt 16 x) (0#16 ++ BitVec.ofNat 16 tile) code
  | .scrollto x y =>
    descriptorOfWords (0x04#8 ++ 0#24) (BitVec.ofInt 16 y ++ BitVec.ofInt 16 x) 0 0

/-- A descriptor in byte-addressed host memory (R55): 16 consecutive bytes, word `Wk` at byte offset `4k`, each word
little-endian. -/
def descriptorBytes (d : Descriptor) : List Byte :=
  (List.range 16).map fun k => d.extractLsb' (8 * k) 8

/-- Why bytes give no command: fewer than 16 of them (a partial descriptor is not an ISSUE, R56, R161), or 16 bytes
that are an illegal descriptor (R89). -/
inductive Rejected where
  | partialDescriptor
  | illegal (reason : Illegal)
  deriving DecidableEq, Repr

/-- The descriptor that 16 bytes of host memory hold, the first byte least significant (R55). -/
def descriptorOfBytes (bs : List Byte) : Descriptor :=
  bs.foldr (fun b acc => (acc <<< 8) ||| b.setWidth 128) 0

/-- Decoding a list of bytes: total, with the rest of the list (R55, R88). -/
def decodeBytes (bs : List Byte) : Except Rejected (Instr × List Byte) :=
  if bs.length < 16 then .error .partialDescriptor
  else match decode (descriptorOfBytes (bs.take 16)) with
    | .ok i => .ok (i, bs.drop 16)
    | .error r => .error (.illegal r)

/-- In byte-addressed host memory descriptors are aligned to 16 bytes (R56). -/
def descriptorAligned (address : Nat) : Bool := address % 16 == 0

/-- The host's question: the command the decoder reads from an instruction whose bits are `w`, of which the table
gives `nbits` (the bits above are 0). -/
def decodeTableWord (nbits w : Nat) : Option Instr :=
  match decodeBytes (descriptorBytes (BitVec.ofNat 128 (w % 2 ^ nbits))) with
  | .ok (i, _) => some i
  | .error _ => none

end Sys2Proof
end

