-- ==== Sys2Proof/Machine/State.lean ====
section
/-! DEFINITION. The state of one instance (10_state.md), as plain data, and its value after reset. -/

namespace Sys2Proof.Machine

/-- A cell-indexed memory: (index, byte) pairs in one canonical form (`Memory.wf`), indexes strictly rising. An
unlisted framebuffer cell is one that no command has written since its contents were last unspecified (log 4). -/
abbrev Memory := List Host.Cell

/-- The causes of a fault (R171). -/
inductive Cause where
  /-- Code 1: the descriptor spells no command (R172). -/
  | illegalCmd
  /-- Code 2: BLIT with `scale = 0` (R173). -/
  | badScale
  /-- Code 3: BLIT whose footprint is not inside the atlas (R174). -/
  | atlasRange
  deriving DecidableEq, Repr

/-- The fields of `STATUS` (R26). The reserved bits read 0 and are not stored. -/
structure Status where
  /-- `BUSY`: a command is accepted and not completed. -/
  busy : Bool
  /-- `FAULT`: sticky; only RESET clears it. -/
  fault : Bool
  /-- `CAUSE`: the code of the first and only fault, 0 when `FAULT = 0`. -/
  cause : BitVec 4
  deriving DecidableEq, Repr

/-- The whole state of one instance (R20), with the bookkeeping of the run (`cp`, R28; the command stream, R161) and
the configuration (R6), which no step changes. -/
structure State where
  /-- The configuration: atlas and dimensions (R6, R32). Nothing changes it (R43). -/
  cfg : Params
  /-- `FB`: the cells written since their contents were last unspecified (R21). -/
  fb : Memory
  /-- The model's own: which draw of unspecified contents the other cells show (R40, log 4). -/
  fbDraw : Nat
  /-- `SCROLL_X` (R25). -/
  scrollX : BitVec 16
  /-- `SCROLL_Y` (R25). -/
  scrollY : BitVec 16
  /-- `STATUS` (R26). -/
  status : Status
  /-- `cp`: the index in the stream of the next command (R28). -/
  cp : Nat
  /-- The command stream (R50, R161): before `cp` the descriptors the host has issued since the last RESET and the
  engine has completed; from `cp` on the rest of the program text, which the host is yet to issue (log 5). After a
  fault the descriptor at `cp` is the faulting one (R28). -/
  stream : List Descriptor
  deriving DecidableEq, Repr

/-- Why a move of the model stops for good. No command and no step of the engine ends in one: the block's own faults
are next states with `STATUS.FAULT = 1` (R176). -/
inductive Fault where
  /-- Raised by `act .readout` while `STATUS.BUSY = 1`: the model has no such move of the host (R62, R193, U7).
  Safe for the engine; for a host that reads anyway see log 6. -/
  | readoutWhileBusy
  deriving DecidableEq, Repr

/-- Why the model gives something no meaning. -/
inductive Refusal where
  /-- An instruction that has no meaning yet, refused by name in exec's arm. None is left. Safe. -/
  | notModelled (mnemonic : String)
  /-- Raised by `step`, `act` (engine step and ISSUE) and `instantiate` on a configuration that R6 excludes (R182, U9).
  Safe: no rule says what such an instance would do. -/
  | illegalConfiguration
  deriving DecidableEq, Repr

/-- `STATUS = 0` (R42). -/
def Status.reset : Status := { busy := false, fault := false, cause := 0 }

/-- An instance with the configuration `p` right after RESET (R40 to R43, R190, R191): nothing known of the
framebuffer, scroll 0, `STATUS = 0`, `cp = 0`, nothing issued.
DESIGN CHOICE (log 4): every instance starts at draw 0, so two instances just made read alike in their unwritten cells,
which no rule says; it is unsafe for a claim that compares instances. -/
def State.ofParams (p : Params) : State :=
  { cfg := p, fb := [], fbDraw := 0, scrollX := 0, scrollY := 0, status := Status.reset, cp := 0, stream := [] }

/-- The machine right after reset, in the configuration of log 2. -/
def State.reset : State := State.ofParams Params.initial

end Sys2Proof.Machine
end

