-- ==== Sys2Proof/Machine/Flags.lean ====
section
/-! DEFINITION. The status register: the cause codes, the word READSTATUS returns, and what accepting, completing and
faulting do to it (R26, R29, R171, R176). No command writes a flag in any other way. -/

namespace Sys2Proof.Machine

/-- The code of a cause, the value of `STATUS.CAUSE` (R171). -/
def Cause.code : Cause → BitVec 4
  | .illegalCmd => 1
  | .badScale => 2
  | .atlasRange => 3

/-- The 32-bit `STATUS` register (R26): bit 0 `BUSY`, bit 1 `FAULT`, bits 7:4 `CAUSE`, the rest 0. -/
def Status.word (st : Status) : BitVec 32 :=
  0#24 ++ st.cause ++ 0#2 ++ BitVec.ofBool st.fault ++ BitVec.ofBool st.busy

/-- `STATUS` while a command executes: `BUSY = 1` (R26, D18). -/
def Status.accepted (st : Status) : Status := { st with busy := true }

/-- `STATUS` after a command completed: `BUSY = 0`, nothing else (R26). -/
def Status.completed (st : Status) : Status := { st with busy := false }

/-- `STATUS` after fault entry with cause `c` (R176). -/
def Status.faulted (c : Cause) : Status := { busy := false, fault := true, cause := c.code }

end Sys2Proof.Machine
end

