-- ==== Sys2Proof/Machine/Ops.lean ====
section
/-! DEFINITION. The named operations over the framebuffer and the run's bookkeeping: cell reads and writes in
canonical form, painting the canvas by a per-pixel function, accepting, completing and faulting a command, fetching a
descriptor. -/

namespace Sys2Proof.Machine

/-- The listed byte of cell `a`, if it is listed. -/
def Memory.read : Memory → Nat → Option Byte
  | [], _ => none
  | (b, v) :: m, a => if a = b then some v else Memory.read m a

/-- `FB[a] <- v` on the list, in canonical form: one cell, indivisible (R57). -/
def Memory.write : Memory → Nat → Byte → Memory
  | [], a, v => [(a, v)]
  | (b, w) :: m, a, v =>
    if a < b then (a, v) :: (b, w) :: m
    else if a = b then (a, v) :: m
    else (b, w) :: Memory.write m a v

/-- Every index is at least `lo` and the indexes rise strictly. -/
def Memory.risingFrom : Nat → Memory → Bool
  | _, [] => true
  | lo, (a, _) :: m => decide (lo ≤ a) && Memory.risingFrom (a + 1) m

/-- The canonical form: indexes strictly rising. An unlisted cell holds no listed value (log 4), so no entry can equal
what an unlisted cell reads as in the list. -/
def Memory.wf (m : Memory) : Bool := Memory.risingFrom 0 m

/-- Every listed index is below `n`. -/
def Memory.within (n : Nat) (m : Memory) : Bool := m.all fun c => decide (c.1 < n)

/-- The list without its first entry if that entry is cell `a`. -/
def Memory.dropHead (a : Nat) : Memory → Memory
  | [] => []
  | (b, w) :: m => if b = a then m else (b, w) :: m

/-- The entries of `new` (indexes rising) written over `old`: the one operation that writes many cells. -/
def Memory.overlay : Memory → Memory → Memory
  | [], old => old
  | (a, v) :: new, old =>
    old.takeWhile (fun c => decide (c.1 < a)) ++
      (a, v) :: Memory.overlay new (Memory.dropHead a (old.dropWhile fun c => decide (c.1 < a)))

/-- The cells that `pixel` colours among the first `n`, in index order. -/
def paintedCells (n : Nat) (pixel : Nat → Option Byte) : Memory :=
  (List.range n).filterMap fun a => (pixel a).map fun v => (a, v)

/-- Write `pixel px py` to every canvas pixel where it gives a colour, leave every other cell (R51, R58: a command's
effect on a cell is either "cell unchanged" or a value that does not depend on the old contents). Cell `a` is the
pixel at column `a mod Wf`, row `a div Wf` (R21). -/
def paint (p : Params) (pixel : Int → Int → Option Byte) (m : Memory) : Memory :=
  Memory.overlay (paintedCells p.cells fun a => pixel ((a % p.wf : Nat) : Int) ((a / p.wf : Nat) : Int)) m

/-- `FB[a]`: the listed byte, or the free value of a cell whose contents are unspecified (R21, R40, log 4).
DESIGN CHOICE (log 4): the free value depends on the draw counter and the cell alone, so two instances at the same draw
read alike in every cell neither has written. R40 and R185 leave their contents independent. -/
def State.fbCell (s : State) (a : Nat) : Byte := (s.fb.read a).getD (Config.freeCell s.fbDraw a)

/-- The state with its framebuffer painted. -/
def State.paint (s : State) (pixel : Int → Int → Option Byte) : State :=
  { s with fb := Sys2Proof.Machine.paint s.cfg pixel s.fb }

/-- Every framebuffer cell becomes unspecified, afresh (R40, R190, R194): the next draw, which another instance that is
reset as often shares (DESIGN CHOICE, log 4). -/
def State.forgetFb (s : State) : State := { s with fb := [], fbDraw := s.fbDraw + 1 }

/-- The engine accepts a command: `BUSY = 1` until it completes or faults (R26). -/
def State.accept (s : State) : State := { s with status := s.status.accepted }

/-- A command completes: `cp <- cp + 1`, `BUSY <- 0` (R26, R28). -/
def State.complete (s : State) : State := { s with status := s.status.completed, cp := s.cp + 1 }

/-- Fault entry, `raise Fault(c)` (R176): `FAULT <- 1`, `CAUSE <- c`, `BUSY <- 0`; no other state changes, `cp` is not
advanced, nothing is saved, control goes nowhere. There is no return from it but RESET (R178). -/
def State.raiseFault (s : State) (c : Cause) : State := { s with status := Status.faulted c }

/-- The descriptor at `cp`, the next of the stream, if there is one (R28, R161). -/
def State.fetch (s : State) : Option Descriptor := s.stream[s.cp]?

/-- The host hands over one descriptor (R161): it is the one the engine performs next, so it stands at `cp`, before any
program text that is yet to be issued, and `BUSY = 1` until it completes or faults (R26, R63). A halted engine discards
it, legal or not (R177). -/
def State.issue (s : State) (d : Descriptor) : State :=
  if s.status.fault then s
  else { s with stream := s.stream.take s.cp ++ d :: s.stream.drop s.cp, status := s.status.accepted }

/-- A program text for the host to issue, one descriptor a step, after the commands completed so far (log 5). -/
def State.loadProgram (s : State) (ds : List Descriptor) : State :=
  { s with stream := s.stream.take s.cp ++ ds }

/-- Place `d` where the engine fetches next: position `cp` of the stream, the commands before it kept. -/
def State.placeDescriptor (s : State) (d : Descriptor) : State :=
  let before := s.stream.take s.cp
  { s with stream :=
      before ++ List.replicate (s.cp - before.length) 0 ++ d :: s.stream.drop (s.cp + 1) }

end Sys2Proof.Machine
end

