-- ==== Sys2Proof/Machine/Operands.lean ====
section
/-! DEFINITION. Operand forms shared by the drawing commands: the scroll-relative origin, the canvas test, the
rectangle test, mirroring and scaling. All arithmetic is exact (R8). -/

namespace Sys2Proof.Machine

/-- `SCROLL_X` as an integer (R25). -/
def State.scrollXInt (s : State) : Int := s.scrollX.toInt

/-- `SCROLL_Y` as an integer (R25). -/
def State.scrollYInt (s : State) : Int := s.scrollY.toInt

/-- `x' = off ? x - SCROLL_X : x` (R131, R140, R146). -/
def originX (off : Bool) (x : Int) (s : State) : Int := if off then x - s.scrollXInt else x

/-- `y' = off ? y - SCROLL_Y : y` (R131, R140, R146). -/
def originY (off : Bool) (y : Int) (s : State) : Int := if off then y - s.scrollYInt else y

/-- The clip test: `0 <= px < Wf` and `0 <= py < Hf`, each axis on its own (R51, R53). -/
def onCanvas (p : Params) (px py : Int) : Bool :=
  decide (0 ≤ px) && decide (px < p.wf) && decide (0 ≤ py) && decide (py < p.hf)

/-- The cell of a pixel on the canvas, `px + py*Wf` (R21, R51). -/
def pixelCell (p : Params) (px py : Int) : Nat := (px + py * p.wf).toNat

/-- `(px, py)` lies in `[x, x+w) × [y, y+h)`: empty if `w <= 0` or `h <= 0` (R131, R133). -/
def inRect (x y w h px py : Int) : Bool :=
  decide (x ≤ px) && decide (px < x + w) && decide (y ≤ py) && decide (py < y + h)

/-- A colour as a pixel to write: 255 writes nothing (R130, R131, R145). -/
def opaqueColor (c : Byte) : Option Byte := if c = transparent then none else some c

/-- The effective source coordinate: `7 - s` when mirrored, else `s` (R140 step 3a). -/
def mirrorCoord (mirrored : Bool) (s : Fin 8) : Fin 8 :=
  if mirrored then ⟨7 - s.val, by omega⟩ else s

/-- The source coordinate whose block of `scale` pixels holds the offset `u` from the square's edge, if `u` lies in
`[0, 8*scale)` (R142). -/
def sourceCoord (scale : Nat) (u : Int) : Option (Fin 8) :=
  if h : 0 ≤ u ∧ u < 8 * (scale : Int) then
    some ⟨u.toNat / scale, Nat.div_lt_of_lt_mul (by omega)⟩
  else none

end Sys2Proof.Machine
end

