-- ==== Sys2Proof/Machine/Atlas.lean ====
section
/-! DEFINITION. The atlas (41_atlas_fetch.md): the loader's conversion, tile addressing, the range condition, the cell
read and the lane decode. -/

namespace Sys2Proof.Machine

/-- `LANE(c) = c div 64`, the loader's conversion of one 8-bit channel value (R120). -/
def laneOfChannel (c : Byte) : Lane := BitVec.ofNat 2 (c.toNat / laneDiv)

/-- `TILEOFFSET(tile)`, the flat index of the tile's top-left pixel (R121). -/
def tileOffset (p : Params) (tile : Nat) : Nat :=
  tile % tilesPerRow * tileSize + tile / tilesPerRow * tileSize * p.w

/-- `INRANGE(tile)`: the largest footprint index lies in the atlas (R123). -/
abbrev inRange (p : Params) (tile : Nat) : Prop := tileOffset p tile + 7 + 7 * p.w < p.atlasCells

/-- The flat index of effective coordinate `(ex, ey)` of a tile, `t0 + ex + ey*W` (R52, R122). -/
def footprintIndex (p : Params) (tile : Nat) (ex ey : Fin 8) : Nat :=
  tileOffset p tile + ex.val + ey.val * p.w

/-- Every footprint index of a tile in range lies in the atlas (R123). -/
theorem footprintIndex_lt {p : Params} {tile : Nat} (h : inRange p tile) (ex ey : Fin 8) :
    footprintIndex p tile ex ey < p.atlasCells := by
  have hrow : ey.val * p.w ≤ 7 * p.w := Nat.mul_le_mul_right _ (by omega)
  have hcol : ex.val ≤ 7 := by omega
  unfold inRange at h
  unfold footprintIndex
  omega

/-- The listed lane of an atlas cell, if the configuration lists it. -/
def lookupLane : List (Nat × Lane) → Nat → Option Lane
  | [], _ => none
  | (b, l) :: m, a => if a = b then some l else lookupLane m a

/-- `PIXELAT(i) = ATLAS[i]`, defined only inside the atlas (R122): a cell the configuration does not list holds a free
value (log 3). -/
def pixelAt (p : Params) (i : Nat) (_inside : i < p.atlasCells) : Lane :=
  (lookupLane p.atlas i).getD (Config.freeLane i)

/-- `LANECOLOR(code, L) = (code >> (L*8)) & 0xFF` (R54, R124). -/
def laneColor (code : Code) (l : Lane) : Byte := ((code >>> (l.toNat * 8)) &&& 0xFF#32).setWidth 8

/-- The image a loader has decoded: width, height and one 8-bit channel per pixel in row-major order (R4, R120). -/
structure Image where
  width : Nat
  height : Nat
  channel : List Byte
  deriving DecidableEq, Repr

/-- The atlas cells a loader stores for an image: `ATLAS[i] = LANE(channel i)` in row-major order (R33, R120). -/
def atlasOfChannels (channel : List Byte) : List (Nat × Lane) :=
  (List.range channel.length).zip (channel.map laneOfChannel)

/-- The loader (R120, R126): the configuration with the image's atlas. It fails, and nothing is substituted, when the
image could not be decoded (`none`; ResourceLoadFailure, R170, R181). DESIGN CHOICE (log 17): it also fails when the image
does not hold `width*height` channel values. -/
def loadAtlas (p : Params) (image : Option Image) : Option Params :=
  match image with
  | none => none
  | some im =>
    if im.channel.length = im.width * im.height then
      some { p with w := im.width, h := im.height, atlas := atlasOfChannels im.channel }
    else none

/-- The configuration a failed load leaves when an instance is made all the same: no cells, so every BLIT with a
non-zero scale faults (R126, U8). -/
def withoutAtlas (p : Params) : Params := { p with w := 0, h := 0, atlas := [] }

end Sys2Proof.Machine
end

