-- ==== Sys2Proof/Machine/Blit.lean ====
section
/-! DEFINITION. BLIT (43_blit.md), in the per-pixel form of R142. -/

namespace Sys2Proof.Machine

/-- The colour of source pixel `(sx, sy)` of a tile in range, mirrored and looked up through the colour code; none if
it is transparent (R140 steps 3a to 3d, R145). -/
def sourceColor (p : Params) (tile : Nat) (inside : inRange p tile) (code : Code) (mx my : Bool)
    (sx sy : Fin 8) : Option Byte :=
  let ex := mirrorCoord mx sx
  let ey := mirrorCoord my sy
  opaqueColor (laneColor code (pixelAt p (footprintIndex p tile ex ey) (footprintIndex_lt inside ex ey)))

/-- What BLIT writes at a pixel, for the square whose corner is `(x, y)` (R142). -/
def blitPixel (p : Params) (tile : Nat) (inside : inRange p tile) (code : Code) (mx my : Bool)
    (scale : Nat) (x y px py : Int) : Option Byte :=
  match sourceCoord scale (px - x), sourceCoord scale (py - y) with
  | some sx, some sy => sourceColor p tile inside code mx my sx sy
  | _, _ => none

/-- BLIT (R140, R141): scale 0 raises BAD_SCALE, then a tile out of range raises ATLAS_RANGE, both before anything is
read or written; else the tile is drawn at the scroll-relative origin and `cp + 1`. -/
def execBlit (x y : Int) (tile : Nat) (code : Code) (mx my : Bool) (scale : Nat) (off : Bool)
    (s : State) : Host.Outcome State Fault Refusal :=
  if scale = 0 then .next (s.raiseFault .badScale)
  else if inside : inRange s.cfg tile then
    .next (s.paint
      (blitPixel s.cfg tile inside code mx my scale (originX off x s) (originY off y s))).complete
  else .next (s.raiseFault .atlasRange)

end Sys2Proof.Machine
end

