-- ==== Sys2Proof/Machine/Fill.lean ====
section
/-! DEFINITION. FILL and FILLRECT (42_fill.md), in the per-pixel form of R132. -/

namespace Sys2Proof.Machine

/-- FILL (R130): colour 255 is a no-op; any other colour overwrites every cell; then `cp + 1`. -/
def execFill (color : Byte) (s : State) : Host.Outcome State Fault Refusal :=
  .next (s.paint fun _ _ => opaqueColor color).complete

/-- What FILLRECT writes at a pixel (R131, R132): the colour inside the rectangle, nothing if it is 255. -/
def rectPixel (x y w h : Int) (color : Byte) (px py : Int) : Option Byte :=
  if inRect x y w h px py then opaqueColor color else none

/-- FILLRECT (R131): the clipped opaque rectangle at the scroll-relative origin; then `cp + 1`. -/
def execFillrect (x y w h : Int) (color : Byte) (off : Bool) (s : State) :
    Host.Outcome State Fault Refusal :=
  .next (s.paint (rectPixel (originX off x s) (originY off y s) w h color)).complete

end Sys2Proof.Machine
end

