-- ==== Sys2Proof/Machine/Scroll.lean ====
section
/-! DEFINITION. SCROLLTO (R160), the block's only control-register write. -/

namespace Sys2Proof.Machine

/-- SCROLLTO (R160): the two scroll registers take the operands; the framebuffer is untouched; then `cp + 1`. -/
def execScrollto (x y : Int) (s : State) : Host.Outcome State Fault Refusal :=
  .next ({ s with scrollX := BitVec.ofInt 16 x, scrollY := BitVec.ofInt 16 y } : State).complete

end Sys2Proof.Machine
end

