-- ==== Sys2Proof/Machine/Dispatch.lean ====
section
/-! DEFINITION. One arm per command: each calls the meaning of its own. -/

namespace Sys2Proof.Machine

def exec (i : Instr) (s : State) : Host.Outcome State Fault Refusal :=
  match i with
  | .fill color => Sys2Proof.Machine.execFill color s
  | .fillrect x y w h color off => Sys2Proof.Machine.execFillrect x y w h color off s
  | .blit x y tile code mx my scale off => Sys2Proof.Machine.execBlit x y tile code mx my scale off s
  | .scrollto x y => Sys2Proof.Machine.execScrollto x y s

end Sys2Proof.Machine
end

