-- ==== Sys2Proof/Machine/Engine.lean ====
section
/-! DEFINITION. What the engine does at one step (R161): nothing while halted (R177), nothing while no descriptor
waits (R184), else the command the descriptor at `cp` spells, or ILLEGAL_CMD. -/

namespace Sys2Proof.Machine

/-- The engine performs one descriptor (R161): the command it spells, or fault entry with ILLEGAL_CMD (R172). -/
def performDescriptor (d : Descriptor) (s : State) : Host.Outcome State Fault Refusal :=
  match decode d with
  | .ok i => exec i s.accept
  | .error _ => .next (s.accept.raiseFault .illegalCmd)

/-- One step of the engine: the host issues the descriptor at `cp` and the engine performs it (log 5). A configuration
that R6 excludes is refused (R182); a halted engine and an idle one leave the state as it is (R177, R184, log 7). -/
def engineStep (s : State) : Host.Outcome State Fault Refusal :=
  if s.cfg.legal = false then .refused .illegalConfiguration
  else if s.status.fault then .next s
  else match s.fetch with
    | none => .next s
    | some d => performDescriptor d s

end Sys2Proof.Machine
end

