-- ==== Sys2Proof/Machine/Step.lean ====
section
/-! DEFINITION. The step of the machine, and the host's way to place an instruction where the step fetches. -/

namespace Sys2Proof.Machine

/-- One step: the engine performs the next descriptor of the stream, if it may. -/
def step (s : State) : Host.Outcome State Fault Refusal := engineStep s

/-- The state with the descriptor whose bits are `w` (those above `nbits` zero) at position `cp` of the command
stream, where `step` fetches: it stands for the host's ISSUE (log 5). -/
def State.withFetchWord (s : State) (nbits w : Nat) : State :=
  s.placeDescriptor (BitVec.ofNat 128 (w % 2 ^ nbits))

end Sys2Proof.Machine
end

