-- ==== Sys2Proof/Machine/Codec.lean ====
section
/-! DEFINITION. The palette codec (40_palette_codec.md): pure functions of the toolchain that build colour operands,
and the informative expansion of an index (R114). -/

namespace Sys2Proof.Machine

/-- `SCC(n)`, the single colour code (R110): 255 for a negative descriptor, `r*36 + g*6 + b` for digits at most 5,
and no value otherwise (R112). -/
def scc (n : Int) : Option Byte :=
  if n < 0 then some transparent
  else
    let r := n / 100
    let g := n / 10 % 10
    let b := n % 10
    if r ≤ 5 ∧ g ≤ 5 ∧ b ≤ 5 then some (BitVec.ofInt 8 (r * 36 + g * 6 + b)) else none

/-- `LCC(c1, c2, c3, c4)`, the layered colour code (R111): `c1` in lane 0 up to `c4` in lane 3; refused if any of the
four is (R112). -/
def lcc (c1 c2 c3 c4 : Int) : Option Code :=
  match scc c1, scc c2, scc c3, scc c4 with
  | some l0, some l1, some l2, some l3 =>
    some ((l3.setWidth 32 <<< 24) ||| (l2.setWidth 32 <<< 16) ||| (l1.setWidth 32 <<< 8) ||| l0.setWidth 32)
  | _, _, _, _ => none

/-- The cube coordinate `(r, g, b)` of a palette index, for an index that denotes a colour (R114, R5). -/
def cubeCoord (i : Byte) : Option (Nat × Nat × Nat) :=
  if i.toNat < cubeSize then some (i.toNat / 36, i.toNat / 6 % 6, i.toNat % 6) else none

/-- The channel intensity of a cube step, `step*255/5` (R4, R114; informative, the presenter's). -/
def stepIntensity (step : Nat) : Nat := step * 255 / 5

end Sys2Proof.Machine
end

