-- ==== Sys2Proof/Machine/Assembler.lean ====
section
/-! DEFINITION. The assembler of 30_encoding.md section 6 (R91 to R94): a toolchain function from a line of text to a
descriptor, refusing every line it does not give a meaning. Log 16 names the lexical conventions it adds. -/

namespace Sys2Proof.Machine

/-- Why a line is refused, with no descriptor (R92, R93). -/
inductive AsmError where
  /-- The line is not a mnemonic and operands separated by commas (R91). -/
  | badSyntax
  /-- The mnemonic is none of the four (R91, R94). -/
  | unknownMnemonic
  /-- Too few or too many operands: every operand is written (R91). -/
  | operandCount
  /-- An operand does not fit its field, or a flag is neither 0 nor 1 (R92). -/
  | operandRange
  /-- An operand function where another kind of operand is expected (R93). -/
  | operandKind
  /-- `scc` or `lcc` of a descriptor that R112 refuses (R93). -/
  | codecRefused
  deriving DecidableEq, Repr

/-- The tokens of a line. A word is a mnemonic, an operand function or a number. -/
inductive Token where
  | word (text : List Char)
  | comma
  | openParen
  | closeParen
  /-- A character that may stand in no line. -/
  | stray (c : Char)
  deriving DecidableEq, Repr

/-- The word collected so far, if any. -/
def wordTokens (collected : List Char) : List Token :=
  if collected = [] then [] else [.word collected.reverse]

/-- The token of a character that ends a word; blanks give none. -/
def separatorTokens (c : Char) : List Token :=
  if c = ' ' ∨ c = '\t' ∨ c = '\r' then []
  else if c = ',' then [.comma]
  else if c = '(' then [.openParen]
  else if c = ')' then [.closeParen]
  else [.stray c]

/-- The tokens of a line; `;` starts a comment to its end (R91). -/
def tokenize : List Char → List Char → List Token
  | [], collected => wordTokens collected
  | c :: cs, collected =>
    if c = ';' then wordTokens collected
    else if c.isAlphanum || c == '-' then tokenize cs (c :: collected)
    else wordTokens collected ++ separatorTokens c ++ tokenize cs []

/-- The value of a digit character in base 16. -/
def digitValue (c : Char) : Option Nat :=
  if '0' ≤ c ∧ c ≤ '9' then some (c.toNat - '0'.toNat)
  else if 'a' ≤ c ∧ c ≤ 'f' then some (c.toNat - 'a'.toNat + 10)
  else if 'A' ≤ c ∧ c ≤ 'F' then some (c.toNat - 'A'.toNat + 10)
  else none

/-- The digits `cs` in base `base`, after the value `acc`. -/
def digitsValue (base : Nat) : List Char → Nat → Option Nat
  | [], acc => some acc
  | c :: cs, acc =>
    match digitValue c with
    | none => none
    | some v => if v < base then digitsValue base cs (acc * base + v) else none

/-- A non-empty digit string in base `base`. -/
def numeral (base : Nat) (cs : List Char) : Option Nat :=
  if cs = [] then none else digitsValue base cs 0

/-- A decimal literal, optionally with a leading `-` (R91, and the only form inside `scc` and `lcc`, R93). -/
def decimalLiteral : List Char → Option Int
  | '-' :: cs => (numeral 10 cs).map fun n => -(n : Int)
  | cs => (numeral 10 cs).map fun n => (n : Int)

/-- An integer literal: decimal, or hexadecimal with a `0x` prefix (R91). -/
def integerLiteral : List Char → Option Int
  | '0' :: 'x' :: cs => (numeral 16 cs).map fun n => (n : Int)
  | cs => decimalLiteral cs

/-- An operand of a line (R91, R93). -/
inductive Operand where
  | literal (n : Int)
  | scc (n : Int)
  | lcc (a b c d : Int)
  deriving DecidableEq, Repr

/-- One operand from the front of the tokens. -/
def parseOperand : List Token → Option (Operand × List Token)
  | .word f :: .openParen :: .word n :: .closeParen :: rest =>
    if f = "scc".toList then (decimalLiteral n).map fun v => (.scc v, rest) else none
  | .word f :: .openParen :: .word a :: .comma :: .word b :: .comma :: .word c :: .comma :: .word d ::
      .closeParen :: rest =>
    if f = "lcc".toList then
      match decimalLiteral a, decimalLiteral b, decimalLiteral c, decimalLiteral d with
      | some va, some vb, some vc, some vd => some (.lcc va vb vc vd, rest)
      | _, _, _, _ => none
    else none
  | .word n :: rest => (integerLiteral n).map fun v => (.literal v, rest)
  | _ => none

/-- Operands separated by commas, to the end of the line; `fuel` bounds their number. -/
def parseOperands : Nat → List Token → Option (List Operand)
  | 0, _ => none
  | fuel + 1, ts =>
    match parseOperand ts with
    | none => none
    | some (o, []) => some [o]
    | some (o, .comma :: rest) => (parseOperands fuel rest).map fun os => o :: os
    | some (_, _ :: _) => none

/-- A signed operand as it is written; its range is checked with the whole command (R92). -/
def coordOperand : Operand → Except AsmError Int
  | .literal n => .ok n
  | _ => .error .operandKind

/-- A natural operand (`tile`, `scale`); a negative one does not fit its field (R92). -/
def natOperand : Operand → Except AsmError Nat
  | .literal n => if 0 ≤ n then .ok n.toNat else .error .operandRange
  | _ => .error .operandKind

/-- A flag, `0` or `1` (R91, R92). DESIGN CHOICE (log 16): any literal of that value spells it, such as `01` or `0x1`;
R91 leaves open whether only the characters `0` and `1` do. -/
def flagOperand : Operand → Except AsmError Bool
  | .literal n => if n = 0 then .ok false else if n = 1 then .ok true else .error .operandRange
  | _ => .error .operandKind

/-- A colour: 0 to 255, or `scc(n)` (R92, R93). -/
def colorOperand : Operand → Except AsmError Byte
  | .literal n => if 0 ≤ n ∧ n ≤ 255 then .ok (BitVec.ofInt 8 n) else .error .operandRange
  | .scc n =>
    match Sys2Proof.Machine.scc n with
    | some v => .ok v
    | none => .error .codecRefused
  | .lcc _ _ _ _ => .error .operandKind

/-- A colour code: 0 to 0xFFFFFFFF, or `lcc(a, b, c, d)` (R92, R93). -/
def codeOperand : Operand → Except AsmError Code
  | .literal n => if 0 ≤ n ∧ n ≤ 0xFFFFFFFF then .ok (BitVec.ofInt 32 n) else .error .operandRange
  | .lcc a b c d =>
    match Sys2Proof.Machine.lcc a b c d with
    | some v => .ok v
    | none => .error .codecRefused
  | .scc _ => .error .operandKind

/-- The command of a mnemonic and its operands, in the order of the document's argument lists (R91). -/
def buildCommand (mnemonic : List Char) (operands : List Operand) : Except AsmError Instr :=
  let name := mnemonic.map Char.toLower
  if name = "fill".toList then
    match operands with
    | [c] => do return .fill (← colorOperand c)
    | _ => .error .operandCount
  else if name = "fillrect".toList then
    match operands with
    | [x, y, w, h, c, off] => do
      return .fillrect (← coordOperand x) (← coordOperand y) (← coordOperand w) (← coordOperand h)
        (← colorOperand c) (← flagOperand off)
    | _ => .error .operandCount
  else if name = "blit".toList then
    match operands with
    | [x, y, tile, code, mx, my, scale, off] => do
      return .blit (← coordOperand x) (← coordOperand y) (← natOperand tile) (← codeOperand code)
        (← flagOperand mx) (← flagOperand my) (← natOperand scale) (← flagOperand off)
    | _ => .error .operandCount
  else if name = "scrollto".toList then
    match operands with
    | [x, y] => do return .scrollto (← coordOperand x) (← coordOperand y)
    | _ => .error .operandCount
  else .error .unknownMnemonic

/-- The descriptor of a command, or a refusal if an operand does not fit its field (R92). -/
def assembleInstr (i : Instr) : Except AsmError Descriptor :=
  if i.wellFormed then .ok (encode i) else .error .operandRange

/-- The mnemonic and the operands of a line (R91): nothing for a line that holds no command. -/
def parseLine (line : List Char) : Except AsmError (Option (List Char × List Operand)) :=
  match tokenize line [] with
  | [] => .ok none
  | .word m :: ts =>
    match (if ts = [] then some [] else parseOperands ts.length ts) with
    | none => .error .badSyntax
    | some operands => .ok (some (m, operands))
  | _ => .error .badSyntax

/-- One line (R91 to R93): nothing for a line that holds no command, else its descriptor or why it is refused. -/
def assembleLine (line : List Char) : Except AsmError (Option Descriptor) := do
  match ← parseLine line with
  | none => return none
  | some (m, operands) => return some (← assembleInstr (← buildCommand m operands))

/-- A program text: the command stream of its lines, in order (R91), or the first refusal. DESIGN CHOICE (log 16): one
refused line refuses the whole text; R92 and R93 speak of the refused line alone. -/
def assembleProgram : List (List Char) → Except AsmError (List Descriptor)
  | [] => .ok []
  | line :: rest => do
    let first ← assembleLine line
    let others ← assembleProgram rest
    return first.toList ++ others

end Sys2Proof.Machine
end

