-- ==== Sys2Proof/Machine/Reference.lean ====
section
/-! DEFINITION. The pseudocode of R130, R131 and R140 as it stands: loops of single cell writes in the reference order
of R61. The meanings use the per-pixel forms of R132 and R142; statements say that the two agree. -/

namespace Sys2Proof.Machine

/-- `for v in [a, b)`: every integer from `a` up to `b`, ascending; none if `b <= a` (00_scope.md section 5). -/
def intRange (a b : Int) : List Int := (List.range (b - a).toNat).map fun (k : Nat) => a + (k : Int)

/-- `if 0 <= px < Wf and 0 <= py < Hf then FB[px + py*Wf] <- color` (R131, R140). -/
def clippedWrite (p : Params) (color : Byte) (m : Memory) (px py : Int) : Memory :=
  if onCanvas p px py then m.write (pixelCell p px py) color else m

/-- The loop of FILL (R130). -/
def fillLoop (p : Params) (color : Byte) (m : Memory) : Memory :=
  if color = transparent then m
  else (List.range p.cells).foldl (fun m a => m.write a color) m

/-- The loop of FILLRECT at the origin `(x, y)` (R131): rows outer, columns inner. -/
def fillrectLoop (p : Params) (x y w h : Int) (color : Byte) (m : Memory) : Memory :=
  if color = transparent then m
  else
    (intRange y (y + h)).foldl
      (fun m py => (intRange x (x + w)).foldl (fun m px => clippedWrite p color m px py) m) m

/-- The block of one source pixel (R140 step 3e): `dy` outer, `dx` inner. -/
def blockLoop (p : Params) (scale : Nat) (x y : Int) (sx sy : Fin 8) (color : Byte) (m : Memory) : Memory :=
  (List.range scale).foldl
    (fun m (dy : Nat) =>
      (List.range scale).foldl
        (fun m (dx : Nat) =>
          clippedWrite p color m (x + (sx.val * scale : Nat) + (dx : Int)) (y + (sy.val * scale : Nat) + (dy : Int)))
        m)
    m

/-- The loop of BLIT at the origin `(x, y)`, for a tile in range (R140): `sy` outermost, then `sx`, then the block. -/
def blitLoop (p : Params) (tile : Nat) (inside : inRange p tile) (code : Code) (mx my : Bool) (scale : Nat)
    (x y : Int) (m : Memory) : Memory :=
  (List.finRange 8).foldl
    (fun m sy =>
      (List.finRange 8).foldl
        (fun m sx =>
          let ex := mirrorCoord mx sx
          let ey := mirrorCoord my sy
          let color :=
            laneColor code (pixelAt p (footprintIndex p tile ex ey) (footprintIndex_lt inside ex ey))
          if color = transparent then m else blockLoop p scale x y sx sy color m)
        m)
    m

end Sys2Proof.Machine
end

