-- ==== Sys2Proof/Machine/HostActions.lean ====
section
/-! DEFINITION. The host's actions on the block (44_scroll_and_host.md, 70_reset_and_hazards.md), and the moves of the
whole system: the engine's step and the host's actions, in any interleaving. -/

namespace Sys2Proof.Machine

/-- READOUT's result (R162): `Wf*Hf` bytes, byte `i` being `FB[i]`. -/
def State.readout (s : State) : List Byte := (List.range s.cfg.cells).map s.fbCell

/-- The state after a READOUT (R162, R194): unchanged if the contents persist across frames, else every cell is
unspecified. -/
def State.afterReadout (s : State) : State := if s.cfg.persist then s else s.forgetFb

/-- READSTATUS's result (R163): the `STATUS` register. It changes nothing. -/
def State.readStatus (s : State) : BitVec 32 := s.status.word

/-- RESET (R190): scroll 0, `STATUS = 0`, every cell unspecified, `cp = 0`, pending descriptors dropped, the
configuration kept. -/
def State.applyReset (s : State) : State :=
  { s.forgetFb with scrollX := 0, scrollY := 0, status := Status.reset, cp := 0, stream := [] }

/-- Making an instance (R6, R182, R192): an illegal configuration is refused. -/
def instantiate (p : Params) : Host.Outcome State Fault Refusal :=
  if p.legal then .next (State.ofParams p) else .refused .illegalConfiguration

/-- The moves of the system (R165): one step of the engine, or one action of the one host. -/
inductive Action where
  /-- The host issues the next descriptor of the program text, if there is one, and the engine executes it: one step
  of the machine (R161, log 5). -/
  | engine
  /-- ISSUE(`D`), synchronous: it returns when the command has completed or faulted (R161, R63). -/
  | issue (d : Descriptor)
  /-- READOUT() (R162). -/
  | readout
  /-- READSTATUS() (R163). -/
  | readStatus
  /-- RESET (R164, R190). -/
  | reset
  deriving DecidableEq, Repr

/-- One move. The host may issue, read the status and reset at any time; a READOUT while `BUSY = 1` is no move of the
model (R62, R165, R193). An ISSUE is the hand-over and the execution in one move, because the calls are synchronous and
`BUSY` reads 0 at every point where the host can act (R161, R26, R62): so after an ISSUE every write of every issued
command has been performed (R63). -/
def act (a : Action) (s : State) : Host.Outcome State Fault Refusal :=
  match a with
  | .engine => step s
  | .issue d => step (s.issue d)
  | .readout => if s.status.busy then .fault .readoutWhileBusy else .next s.afterReadout
  | .readStatus => .next s
  | .reset => .next s.applyReset

/-- A list of moves, stopping at the first fault or refusal. -/
def actAll : List Action → State → Host.Outcome State Fault Refusal
  | [], s => .next s
  | a :: as, s =>
    match act a s with
    | .next t => actAll as t
    | .fault f => .fault f
    | .refused r => .refused r

/-- The host issues the descriptors of a stream, in order (R161). -/
def State.issueAll (s : State) (ds : List Descriptor) : Host.Outcome State Fault Refusal :=
  actAll (ds.map Action.issue) s

/-- A move of instance `k` among several (R67, R185): the instances share nothing. -/
def actOn (k : Nat) (a : Action) (instances : List State) : Host.Outcome (List State) Fault Refusal :=
  match instances[k]? with
  | none => .next instances
  | some s =>
    match act a s with
    | .next t => .next (instances.set k t)
    | .fault f => .fault f
    | .refused r => .refused r

end Sys2Proof.Machine
end

