-- ==== Sys2Proof/Safety.lean ====
section
/-! DEFINITION. What counts as a good state and as the end of a run, in the terms the statements use. -/

namespace Sys2Proof.Machine

/-- The run is over, finally: every issued command has completed, none faulted (R28). -/
def State.final (s : State) : Bool :=
  s.cp == s.stream.length && !s.status.busy && !s.status.fault

/-- The run is over by a fault, which is never final (R28, R177). -/
def State.halted (s : State) : Bool := s.status.fault

/-- `CAUSE` agrees with `FAULT`: 0 when no fault has occurred, else the code of one of the three causes (R26, R171). -/
def Status.Coherent (st : Status) : Prop :=
  (st.fault = false → st.cause = 0) ∧ (st.fault = true → ∃ c : Cause, st.cause = c.code)

/-- A good state between moves: what every run from a legal configuration keeps. -/
structure State.Inv (s : State) : Prop where
  /-- The configuration is one that R6 allows. -/
  legal : s.cfg.legal = true
  /-- `BUSY` reads 0 at every point where the host can act (R26, R62). -/
  idle : s.status.busy = false
  /-- `CAUSE` agrees with `FAULT` (R26, R171). -/
  coherent : s.status.Coherent
  /-- `cp` indexes the stream or is its length (R28). -/
  cpBound : s.cp ≤ s.stream.length
  /-- After a fault `cp` names the faulting command, which is in the stream (R28). -/
  faultAt : s.status.fault = true → s.cp < s.stream.length
  /-- The framebuffer list is in canonical form. -/
  canonical : s.fb.wf = true
  /-- Every written cell lies on the canvas (R53). -/
  within : s.fb.within s.cfg.cells = true
  /-- No command ever wrote the value 255 (R22). -/
  written : ∀ c ∈ s.fb, c.2 ≠ transparent

/-- A colour value that the palette gives a meaning: 0 to 215, or 255 (R22, U1). -/
def inPalette (v : Byte) : Bool := decide (v.toNat < cubeSize) || v == transparent

/-- Every colour value a command supplies is in the palette (the host's duty of R22). -/
def colorsInPalette : Instr → Bool
  | .fill color => inPalette color
  | .fillrect _ _ _ _ color _ => inPalette color
  | .blit _ _ _ code _ _ _ _ =>
    inPalette (laneColor code 0) && inPalette (laneColor code 1) && inPalette (laneColor code 2) &&
      inPalette (laneColor code 3)
  | .scrollto _ _ => true

/-- The states a legal instance can reach by the engine's steps and the host's actions. -/
inductive Reachable : State → Prop where
  | start (p : Params) (h : p.legal = true) : Reachable (State.ofParams p)
  | move {s t : State} (a : Action) (hs : Reachable s) (h : act a s = .next t) : Reachable t

end Sys2Proof.Machine
end

