-- ==== Sys2Proof/Certificates/Slice0/Obligations.lean ====
section
/-! DEFINITION. The statements for the provers, from the numbered rules of spec/. In them `s` is any state, reachable or
not, and `s.cfg` any configuration; the free values (log 3, log 4) are whatever they are. -/

open Sys2Proof Sys2Proof.Machine

/-! ### Encoding -/

/-- The worked encodings of 30_encoding.md decode to the commands they stand for. -/
def Obligations.WorkedEncodingsDecode : Prop :=
  decode (descriptorOfWords 0x01000001 0 0 0) = .ok (.fill 1) ∧
  decode (descriptorOfWords 0x0204002B 0x000A000C 0x0006000A 0) = .ok (.fillrect 12 10 10 6 43 true) ∧
  decode (descriptorOfWords 0x03060200 0xFFFF0001 0 0xD7B42400) =
    .ok (.blit 1 (-1) 0 0xD7B42400 false true 2 true) ∧
  decode (descriptorOfWords 0x04000000 0x00020004 0 0) = .ok (.scrollto 4 2) ∧
  decode 0 = .error (.unassignedOpcode 0)

/-- R92: "Encode followed by decode returns the operands", for every command whose operands fit their fields; and so
through the 16 bytes of a descriptor in host memory (R55), whatever bytes follow it. -/
def Obligations.EncodedCommandsDecodeBack : Prop :=
  ∀ i : Instr, i.wellFormed = true → decode (encode i) = .ok i ∧
    (descriptorBytes (encode i)).length = 16 ∧
    ∀ rest : List Byte, decodeBytes (descriptorBytes (encode i) ++ rest) = .ok (i, rest)

/-- R92: "decode followed by encode returns the descriptor, for every legal descriptor", and what a descriptor spells
always fits the fields. -/
def Obligations.DecodedDescriptorsEncodeBack : Prop :=
  ∀ (d : Descriptor) (i : Instr), decode d = .ok i → encode i = d ∧ i.wellFormed = true

/-- R88: a descriptor spells the command of a row iff `D & mask == match`, the four rows exclude one another, and a
descriptor that matches no row is illegal. -/
def Obligations.DecodingFollowsMaskAndMatch : Prop :=
  ∀ d : Descriptor,
    ((∃ c, decode d = .ok (.fill c)) ↔ d &&& formatF.mask = formatF.pattern) ∧
    ((∃ x y w h c o, decode d = .ok (.fillrect x y w h c o)) ↔ d &&& formatR.mask = formatR.pattern) ∧
    ((∃ x y t k mx my n o, decode d = .ok (.blit x y t k mx my n o)) ↔
      d &&& formatB.mask = formatB.pattern) ∧
    ((∃ x y, decode d = .ok (.scrollto x y)) ↔ d &&& formatS.mask = formatS.pattern) ∧
    ((∃ r, decode d = .error r) ↔
      ∀ f ∈ [formatF, formatR, formatB, formatS], d &&& f.mask ≠ f.pattern) ∧
    [formatF, formatR, formatB, formatS].Pairwise
      (fun f g => ¬ (d &&& f.mask = f.pattern ∧ d &&& g.mask = g.pattern))

/-- R89, R172: a descriptor whose `OPCODE` is 0x00 or 0x05 to 0xFF, or that has a must-be-zero bit of its format set,
raises ILLEGAL_CMD when the engine executes it, and nothing but `STATUS` changes. -/
def Obligations.IllegalDescriptorsRaiseIllegalCmd : Prop :=
  ∀ (s : State) (d : Descriptor), s.cfg.legal = true → s.status.fault = false → s.fetch = some d →
    (opcodeField d = 0 ∨ 5 ≤ (opcodeField d).toNat ∨
      (opcodeField d = 1 ∧ d &&& formatF.mask ≠ formatF.pattern) ∨
      (opcodeField d = 2 ∧ d &&& formatR.mask ≠ formatR.pattern) ∨
      (opcodeField d = 3 ∧ d &&& formatB.mask ≠ formatB.pattern) ∨
      (opcodeField d = 4 ∧ d &&& formatS.mask ≠ formatS.pattern)) →
    step s = .next { s with status := { busy := false, fault := true, cause := 1 } }

/-! ### The step -/

/-- A step runs the decoded instruction: when the descriptor at `cp` spells `i`, the step is `exec i` at the state with
`BUSY` set, and nothing else around it. An engine with nothing to execute waits (R184); that its step
answers a next state, the same, is the model's reading (log 7, DEDUCED). -/
def Obligations.StepRunsTheDecodedCommand : Prop :=
  (∀ (s : State) (d : Descriptor) (i : Instr), s.cfg.legal = true → s.status.fault = false →
    s.stream[s.cp]? = some d → decode d = .ok i →
    step s = exec i { s with status := { s.status with busy := true } }) ∧
  (∀ s : State, s.cfg.legal = true → s.stream[s.cp]? = none → step s = .next s)

/-- R161: in an unfaulted engine an issued command is executed by that very ISSUE, whatever program text is yet to come:
the move is `exec` of it at the state in which its descriptor stands at `cp` and `BUSY` is set, it answers a next state,
and `BUSY` reads 0 there. -/
def Obligations.IssuedCommandRunsNext : Prop :=
  ∀ (s : State) (i : Instr), s.cfg.legal = true → s.status.fault = false → s.cp ≤ s.stream.length →
    i.wellFormed = true →
    ∃ t, act (.issue (encode i)) s =
        exec i { s with stream := s.stream.take s.cp ++ encode i :: s.stream.drop s.cp,
                        status := { s.status with busy := true } } ∧
      act (.issue (encode i)) s = .next t ∧ t.status.busy = false ∧ t.stream[s.cp]? = some (encode i)

/-- R63: idleness is the ordering point. In every reachable state, where the host can act, `BUSY` reads 0, and unless a
fault has halted the engine every issued command has completed; and from the hand-over of a descriptor until it is done
`BUSY` reads 1 and a READOUT is no move. -/
def Obligations.BusyZeroMeansEveryIssuedCommandIsDone : Prop :=
  (∀ s : State, Reachable s →
    s.readStatus.getLsbD 0 = false ∧ (s.status.fault = false → s.cp = s.stream.length)) ∧
  (∀ (s : State) (d : Descriptor), s.status.fault = false →
    (s.issue d).readStatus.getLsbD 0 = true ∧ act .readout (s.issue d) = .fault .readoutWhileBusy)

/-- R60, R161: running a program text step by step and issuing its descriptors one by one end in the same state, unless a
fault halts the engine; then they end alike but for the program text left unissued, which the stream of the stepped run
still lists at its end (log 5, log 14). -/
def Obligations.StepsOfAProgramAreItsIssues : Prop :=
  ∀ (s : State) (ds : List Descriptor), s.cfg.legal = true → s.cp = s.stream.length →
    ∃ t u, Host.Core.run core ds.length (s.loadProgram ds) = .next t ∧ s.issueAll ds = .next u ∧
      u = { t with stream := u.stream } ∧ (t.status.fault = false → u = t) ∧
      ∃ unissued, t.stream = u.stream ++ unissued

/-! ### FILL and FILLRECT -/

/-- R130: FILL completes; a colour other than 255 overwrites every cell, 255 none; `cp` advances, `BUSY` is 0 again, and
nothing else changes. -/
def Obligations.FillWritesEveryCell : Prop :=
  ∀ (color : Byte) (s : State), ∃ t, exec (.fill color) s = .next t ∧
    t = { s with fb := t.fb, status := { s.status with busy := false }, cp := s.cp + 1 } ∧
    (color = 255 → t.fb = s.fb) ∧
    (color ≠ 255 → ∀ a, a < s.cfg.wf * s.cfg.hf → t.fbCell a = color) ∧
    (∀ a, s.cfg.wf * s.cfg.hf ≤ a → t.fbCell a = s.fbCell a)

/-- R130: FILL has the effect of its pseudocode, the loop of single cell writes. -/
def Obligations.FillRunsItsPseudocode : Prop :=
  ∀ (color : Byte) (s : State), s.fb.wf = true →
    exec (.fill color) s =
      .next { s with fb := fillLoop s.cfg color s.fb, status := { s.status with busy := false }, cp := s.cp + 1 }

/-- R130, corner case: executed twice with the same colour it gives the same framebuffer as once. -/
def Obligations.FillTwiceIsFillOnce : Prop :=
  ∀ (color : Byte) (s : State), s.fb.wf = true → ∃ t u, exec (.fill color) s = .next t ∧
    exec (.fill color) t = .next u ∧ u = { t with cp := s.cp + 2 }

/-- R131, R132: FILLRECT completes; on the canvas exactly the pixels of `[x', x'+w) × [y', y'+h)` take the colour (none
if it is 255), every other cell reads as before; `cp` advances, `BUSY` is 0 again, and nothing else changes. -/
def Obligations.FillrectDrawsTheClippedRectangle : Prop :=
  ∀ (x y w h : Int) (color : Byte) (off : Bool) (s : State), ∃ t,
    exec (.fillrect x y w h color off) s = .next t ∧
    t = { s with fb := t.fb, status := { s.status with busy := false }, cp := s.cp + 1 } ∧
    (color = 255 → t.fb = s.fb) ∧
    (∀ px py : Nat, px < s.cfg.wf → py < s.cfg.hf →
      let x' := if off then x - s.scrollX.toInt else x
      let y' := if off then y - s.scrollY.toInt else y
      t.fbCell (px + py * s.cfg.wf) =
        if color ≠ 255 ∧ max x' 0 ≤ px ∧ (px : Int) < min (x' + w) s.cfg.wf ∧
            max y' 0 ≤ py ∧ (py : Int) < min (y' + h) s.cfg.hf then color
        else s.fbCell (px + py * s.cfg.wf)) ∧
    (∀ a, s.cfg.wf * s.cfg.hf ≤ a → t.fbCell a = s.fbCell a)

/-- R131: FILLRECT has the effect of its pseudocode, the loop over the rectangle with a clip test at every pixel. -/
def Obligations.FillrectRunsItsPseudocode : Prop :=
  ∀ (x y w h : Int) (color : Byte) (off : Bool) (s : State), s.fb.wf = true →
    exec (.fillrect x y w h color off) s =
      .next { s with
        fb := fillrectLoop s.cfg (if off then x - s.scrollX.toInt else x)
          (if off then y - s.scrollY.toInt else y) w h color s.fb
        status := { s.status with busy := false }
        cp := s.cp + 1 }

/-- R133 (a), (b), (d): a rectangle with no width or no height, wholly off the canvas, or of colour 255, writes nothing
and completes. -/
def Obligations.FillrectOfNothingDrawsNothing : Prop :=
  ∀ (x y w h : Int) (color : Byte) (off : Bool) (s : State),
    let x' := if off then x - s.scrollX.toInt else x
    let y' := if off then y - s.scrollY.toInt else y
    (w ≤ 0 ∨ h ≤ 0 ∨ x' + w ≤ 0 ∨ (s.cfg.wf : Int) ≤ x' ∨ y' + h ≤ 0 ∨ (s.cfg.hf : Int) ≤ y' ∨ color = 255) →
    exec (.fillrect x y w h color off) s =
      .next { s with status := { s.status with busy := false }, cp := s.cp + 1 }

/-- R133 (c): a rectangle that covers the whole canvas has the effect of FILL with that colour. -/
def Obligations.FillrectOverTheCanvasIsFill : Prop :=
  ∀ (x y w h : Int) (color : Byte) (off : Bool) (s : State),
    let x' := if off then x - s.scrollX.toInt else x
    let y' := if off then y - s.scrollY.toInt else y
    x' ≤ 0 → y' ≤ 0 → (s.cfg.wf : Int) ≤ x' + w → (s.cfg.hf : Int) ≤ y' + h →
    exec (.fillrect x y w h color off) s = exec (.fill color) s

/-! ### BLIT -/

/-- R142: BLIT with a scale of at least 1 and a tile in range completes. With `u`, `v` the pixel's offsets from the
square's corner and `k` the scale: outside `[0, 8k)` the cell reads as before; inside, it takes the colour that source
pixel `(u div k, v div k)`, mirrored, selects, unless that is 255. `cp` advances, `BUSY` is 0 again, nothing else
changes. -/
def Obligations.BlitDrawsTheTile : Prop :=
  ∀ (x y : Int) (tile : Nat) (code : Code) (mx my : Bool) (k : Nat) (off : Bool) (s : State),
    k ≠ 0 → tileOffset s.cfg tile + 7 + 7 * s.cfg.w < s.cfg.w * s.cfg.h →
    ∃ t, exec (.blit x y tile code mx my k off) s = .next t ∧
    t = { s with fb := t.fb, status := { s.status with busy := false }, cp := s.cp + 1 } ∧
    (∀ px py : Nat, px < s.cfg.wf → py < s.cfg.hf →
      let u := (px : Int) - (if off then x - s.scrollX.toInt else x)
      let v := (py : Int) - (if off then y - s.scrollY.toInt else y)
      (¬ (0 ≤ u ∧ u < 8 * (k : Int) ∧ 0 ≤ v ∧ v < 8 * (k : Int)) →
        t.fbCell (px + py * s.cfg.wf) = s.fbCell (px + py * s.cfg.wf)) ∧
      (0 ≤ u ∧ u < 8 * (k : Int) ∧ 0 ≤ v ∧ v < 8 * (k : Int) →
        ∃ sx sy : Nat, (sx : Int) = u / k ∧ (sy : Int) = v / k ∧
        ∃ inside : tileOffset s.cfg tile + (if mx then 7 - sx else sx) + (if my then 7 - sy else sy) * s.cfg.w
            < s.cfg.atlasCells,
          t.fbCell (px + py * s.cfg.wf) =
            if laneColor code (pixelAt s.cfg _ inside) ≠ 255 then laneColor code (pixelAt s.cfg _ inside)
            else s.fbCell (px + py * s.cfg.wf))) ∧
    (∀ a, s.cfg.wf * s.cfg.hf ≤ a → t.fbCell a = s.fbCell a)

/-- R140: BLIT has the effect of its pseudocode: scale 0 raises BAD_SCALE, else a tile out of range raises ATLAS_RANGE,
else for each source pixel, for each replica, a clip test and a single cell write, and `cp` advances. -/
def Obligations.BlitRunsItsPseudocode : Prop :=
  ∀ (x y : Int) (tile : Nat) (code : Code) (mx my : Bool) (k : Nat) (off : Bool) (s : State),
    s.fb.wf = true →
    (k = 0 → exec (.blit x y tile code mx my k off) s =
      .next { s with status := { busy := false, fault := true, cause := 2 } }) ∧
    (k ≠ 0 → ¬ inRange s.cfg tile → exec (.blit x y tile code mx my k off) s =
      .next { s with status := { busy := false, fault := true, cause := 3 } }) ∧
    (k ≠ 0 → ∀ inside : inRange s.cfg tile,
      exec (.blit x y tile code mx my k off) s =
        .next { s with
          fb := blitLoop s.cfg tile inside code mx my k (if off then x - s.scrollX.toInt else x)
            (if off then y - s.scrollY.toInt else y) s.fb
          status := { s.status with busy := false }
          cp := s.cp + 1 })

/-- R173: BLIT with `scale == 0` raises BAD_SCALE, whatever the tile and the geometry; only `STATUS` changes. -/
def Obligations.BlitOfScaleZeroRaisesBadScale : Prop :=
  ∀ (x y : Int) (tile : Nat) (code : Code) (mx my off : Bool) (s : State),
    exec (.blit x y tile code mx my 0 off) s =
      .next { s with status := { busy := false, fault := true, cause := 2 } }

/-- R174: BLIT with `scale != 0` and `TILEOFFSET(tile) + 7 + 7*W >= W*H` raises ATLAS_RANGE, whatever the geometry and
the colour code; only `STATUS` changes. With an empty atlas every BLIT with `scale != 0` does. -/
def Obligations.BlitOutOfTheAtlasRaisesAtlasRange : Prop :=
  (∀ (x y : Int) (tile : Nat) (code : Code) (mx my : Bool) (k : Nat) (off : Bool) (s : State), k ≠ 0 →
    s.cfg.w * s.cfg.h ≤ tile % 32 * 8 + tile / 32 * 8 * s.cfg.w + 7 + 7 * s.cfg.w →
    exec (.blit x y tile code mx my k off) s =
      .next { s with status := { busy := false, fault := true, cause := 3 } }) ∧
  (∀ (x y : Int) (tile : Nat) (code : Code) (mx my : Bool) (k : Nat) (off : Bool) (s : State), k ≠ 0 →
    s.cfg.w * s.cfg.h = 0 →
    exec (.blit x y tile code mx my k off) s =
      .next { s with status := { busy := false, fault := true, cause := 3 } })

/-- R175: ILLEGAL_CMD first, then BAD_SCALE, then ATLAS_RANGE: what one step reports. Only the first fault is ever
reported: an engine that has faulted reports nothing more. That its step answers a next state, the same, is the model's
reading (log 7, DEDUCED). -/
def Obligations.FaultPriorityIsIllegalThenScaleThenRange : Prop :=
  (∀ s : State, s.cfg.legal = true → s.status.fault = true → step s = .next s) ∧
  ∀ (s : State) (d : Descriptor), s.cfg.legal = true → s.status.fault = false → s.stream[s.cp]? = some d →
    (∀ r, decode d = .error r →
      step s = .next { s with status := { busy := false, fault := true, cause := 1 } }) ∧
    (∀ x y tile code mx my off, decode d = .ok (.blit x y tile code mx my 0 off) →
      step s = .next { s with status := { busy := false, fault := true, cause := 2 } }) ∧
    (∀ x y tile code mx my k off, decode d = .ok (.blit x y tile code mx my k off) → k ≠ 0 →
      ¬ inRange s.cfg tile →
      step s = .next { s with status := { busy := false, fault := true, cause := 3 } })

/-- R143: in any row of the canvas, the colour that a BLIT with `mx = 1` gives to column offset `8k-1-u` is the one the
same BLIT with `mx = 0` gives to column offset `u`, pixels left untouched included. -/
def Obligations.BlitMirrorXReversesColumns : Prop :=
  ∀ (x y : Int) (tile : Nat) (code : Code) (my : Bool) (k : Nat) (off : Bool) (s : State),
    k ≠ 0 → inRange s.cfg tile →
    ∃ t m, exec (.blit x y tile code false my k off) s = .next t ∧
      exec (.blit x y tile code true my k off) s = .next m ∧
      ∀ px qx py : Nat, px < s.cfg.wf → qx < s.cfg.wf → py < s.cfg.hf →
        (px : Int) + qx = 2 * (if off then x - s.scrollX.toInt else x) + 8 * k - 1 →
        (t.fbCell (px + py * s.cfg.wf) = s.fbCell (px + py * s.cfg.wf) ∧
          m.fbCell (qx + py * s.cfg.wf) = s.fbCell (qx + py * s.cfg.wf)) ∨
        t.fbCell (px + py * s.cfg.wf) = m.fbCell (qx + py * s.cfg.wf)

/-- R143: "The same holds for `my` and rows." -/
def Obligations.BlitMirrorYReversesRows : Prop :=
  ∀ (x y : Int) (tile : Nat) (code : Code) (mx : Bool) (k : Nat) (off : Bool) (s : State),
    k ≠ 0 → inRange s.cfg tile →
    ∃ t m, exec (.blit x y tile code mx false k off) s = .next t ∧
      exec (.blit x y tile code mx true k off) s = .next m ∧
      ∀ px py qy : Nat, px < s.cfg.wf → py < s.cfg.hf → qy < s.cfg.hf →
        (py : Int) + qy = 2 * (if off then y - s.scrollY.toInt else y) + 8 * k - 1 →
        (t.fbCell (px + py * s.cfg.wf) = s.fbCell (px + py * s.cfg.wf) ∧
          m.fbCell (px + qy * s.cfg.wf) = s.fbCell (px + qy * s.cfg.wf)) ∨
        t.fbCell (px + py * s.cfg.wf) = m.fbCell (px + qy * s.cfg.wf)

/-- R144, R145: source pixel `(sx, sy)` colours its `k×k` block with one colour, each pixel clipped on its own; if that
colour is 255 no replica is written. -/
def Obligations.BlitScalesEachSourcePixelToABlock : Prop :=
  ∀ (x y : Int) (tile : Nat) (code : Code) (mx my : Bool) (k : Nat) (off : Bool) (s : State),
    k ≠ 0 → (inside : inRange s.cfg tile) →
    ∃ t, exec (.blit x y tile code mx my k off) s = .next t ∧
      ∀ (sx sy : Fin 8) (dx dy px py : Nat), dx < k → dy < k → px < s.cfg.wf → py < s.cfg.hf →
        (px : Int) = (if off then x - s.scrollX.toInt else x) + sx.val * k + dx →
        (py : Int) = (if off then y - s.scrollY.toInt else y) + sy.val * k + dy →
        let color := laneColor code (pixelAt s.cfg
          (footprintIndex s.cfg tile (mirrorCoord mx sx) (mirrorCoord my sy))
          (footprintIndex_lt inside (mirrorCoord mx sx) (mirrorCoord my sy)))
        t.fbCell (px + py * s.cfg.wf) = if color = 255 then s.fbCell (px + py * s.cfg.wf) else color

/-- R145: a BLIT whose four lanes all hold 255 completes and writes nothing; it still faults if its tile is out of
range. -/
def Obligations.TransparentBlitWritesNothing : Prop :=
  ∀ (x y : Int) (tile : Nat) (mx my : Bool) (k : Nat) (off : Bool) (s : State), k ≠ 0 →
    (inRange s.cfg tile → exec (.blit x y tile 0xFFFFFFFF mx my k off) s =
      .next { s with status := { s.status with busy := false }, cp := s.cp + 1 }) ∧
    (¬ inRange s.cfg tile → exec (.blit x y tile 0xFFFFFFFF mx my k off) s =
      .next { s with status := { busy := false, fault := true, cause := 3 } })

/-- R146: BLIT and FILLRECT with `off = 1` have the effect of the same command at the origin less the scroll offset with
`off = 0`; with `off = 0` the scroll registers are not read: from two states that differ only in them the command ends in
states that differ only in them. -/
def Obligations.DrawsAreRelativeToTheScrollOffset : Prop :=
  ∀ (x y w h : Int) (color : Byte) (tile : Nat) (code : Code) (mx my : Bool) (k : Nat) (s : State)
    (scrollX scrollY : BitVec 16),
    exec (.blit x y tile code mx my k true) s =
      exec (.blit (x - s.scrollX.toInt) (y - s.scrollY.toInt) tile code mx my k false) s ∧
    exec (.fillrect x y w h color true) s =
      exec (.fillrect (x - s.scrollX.toInt) (y - s.scrollY.toInt) w h color false) s ∧
    (∃ t, exec (.blit x y tile code mx my k false) s = .next t ∧
      exec (.blit x y tile code mx my k false) { s with scrollX := scrollX, scrollY := scrollY } =
        .next { t with scrollX := scrollX, scrollY := scrollY }) ∧
    (∃ t, exec (.fillrect x y w h color false) s = .next t ∧
      exec (.fillrect x y w h color false) { s with scrollX := scrollX, scrollY := scrollY } =
        .next { t with scrollX := scrollX, scrollY := scrollY })

/-- R61: no BLIT visits one cell twice: two destinations on the canvas that are the same cell are the same replica of
the same source pixel. -/
def Obligations.BlitVisitsNoCellTwice : Prop :=
  ∀ (p : Params) (x y : Int) (k : Nat) (sx sy sx' sy' : Fin 8) (dx dy dx' dy' : Nat),
    dx < k → dy < k → dx' < k → dy' < k →
    onCanvas p (x + sx.val * k + dx) (y + sy.val * k + dy) = true →
    onCanvas p (x + sx'.val * k + dx') (y + sy'.val * k + dy') = true →
    pixelCell p (x + sx.val * k + dx) (y + sy.val * k + dy) =
      pixelCell p (x + sx'.val * k + dx') (y + sy'.val * k + dy') →
    sx = sx' ∧ sy = sy' ∧ dx = dx' ∧ dy = dy'

/-! ### SCROLLTO -/

/-- R160: SCROLLTO completes; the registers hold the operands, every 16-bit value legal; `cp` advances, `BUSY` is 0
again, and nothing else changes, the framebuffer in particular. -/
def Obligations.ScrolltoSetsTheScrollRegisters : Prop :=
  ∀ (x y : Int) (s : State), (Instr.scrollto x y).wellFormed = true →
    ∃ t, exec (.scrollto x y) s = .next t ∧ t.scrollX.toInt = x ∧ t.scrollY.toInt = y ∧
      t = { s with scrollX := t.scrollX, scrollY := t.scrollY,
                   status := { s.status with busy := false }, cp := s.cp + 1 }

/-! ### Faults and the halted state -/

/-- R176: when a step faults, the state differs from the one before only in `STATUS`: `FAULT = 1`, `BUSY = 0` and one of
the three cause codes; nothing was drawn and `cp` names the faulting command. No later step of the engine has any effect; that it answers a
next state, the same, is the model's reading (log 7, DEDUCED). -/
def Obligations.FaultEntryChangesOnlyStatus : Prop :=
  ∀ s t : State, step s = .next t → s.status.fault = false → t.status.fault = true →
    (∃ c : Cause, t = { s with status := { busy := false, fault := true, cause := c.code } }) ∧
    ∀ n, Host.Core.run core n t = .next t

/-- R177: while `FAULT = 1`, whatever the engine and the host do short of RESET, every move is answered, READOUT and
READSTATUS included, and `SCROLL_X`, `SCROLL_Y`, `STATUS` and `cp` stay as they are; every framebuffer cell reads as
before, unless there was a READOUT on a platform where contents do not persist across it. -/
def Obligations.HaltedEngineExecutesNothing : Prop :=
  ∀ (s : State) (moves : List Action), s.cfg.legal = true → s.status.fault = true → s.status.busy = false →
    (∀ a ∈ moves, a ≠ .reset) →
    ∃ t, actAll moves s = .next t ∧ t.scrollX = s.scrollX ∧ t.scrollY = s.scrollY ∧ t.status = s.status ∧
      t.cp = s.cp ∧
      ((s.cfg.persist = true ∨ Action.readout ∉ moves) → ∀ cell, t.fbCell cell = s.fbCell cell)

/-- The halted state whole: under the same moves nothing but the framebuffer contents can differ, and if contents persist
or no READOUT was made nothing does. That the stream stays as it is too is the model's reading (log 14, DEDUCED). -/
def Obligations.HaltedMovesLeaveTheWholeState : Prop :=
  ∀ (s : State) (moves : List Action), s.cfg.legal = true → s.status.fault = true → s.status.busy = false →
    (∀ a ∈ moves, a ≠ .reset) →
    ∃ t, actAll moves s = .next t ∧ t = { s with fb := t.fb, fbDraw := t.fbDraw } ∧
      ((s.cfg.persist = true ∨ Action.readout ∉ moves) → t = s)

/-- R178: no move but RESET clears a fault; RESET does, and leaves the framebuffer unspecified, in the form of log 4
(DESIGN CHOICE): nothing listed, the free values of another draw. -/
def Obligations.OnlyResetClearsAFault : Prop :=
  (∀ (a : Action) (s t : State), act a s = .next t → s.status.fault = true → t.status.fault = false → a = .reset) ∧
  (∀ s : State, ∃ t, act .reset s = .next t ∧ t.status.fault = false ∧ t.fb = [] ∧ t.fbDraw ≠ s.fbDraw)

/-! ### Whole-machine rules -/

/-- R23, R24: a move that changes what a framebuffer cell reads as is the execution of a FILL, FILLRECT or BLIT (the next
descriptor of the program text, or one just issued), a RESET, or a READOUT on a platform where contents do not
persist. -/
def Obligations.OnlyDrawsResetAndFrameEndChangeTheFramebuffer : Prop :=
  ∀ (a : Action) (s t : State) (cell : Nat), act a s = .next t → s.cp ≤ s.stream.length →
    t.fbCell cell ≠ s.fbCell cell →
    a = .reset ∨ (a = .readout ∧ s.cfg.persist = false) ∨
    ∃ d i, decode d = .ok i ∧ (∀ x y, i ≠ .scrollto x y) ∧
      (a = .issue d ∨ (a = .engine ∧ s.stream[s.cp]? = some d))

/-- R25: a move that changes a scroll register is the execution of a SCROLLTO, or a RESET. -/
def Obligations.OnlyScrolltoAndResetChangeTheScroll : Prop :=
  ∀ (a : Action) (s t : State), act a s = .next t → s.cp ≤ s.stream.length →
    (t.scrollX ≠ s.scrollX ∨ t.scrollY ≠ s.scrollY) →
    a = .reset ∨
    ∃ d x y, decode d = .ok (.scrollto x y) ∧ (a = .issue d ∨ (a = .engine ∧ s.stream[s.cp]? = some d))

/-- R32, R43: no command and no host action changes the configuration. -/
def Obligations.NoMoveChangesTheConfiguration : Prop :=
  ∀ (moves : List Action) (s t : State), actAll moves s = .next t → t.cfg = s.cfg

/-- The invariant holds right after reset, and for every instance that can be made. -/
def Obligations.ResetStateMeetsTheInvariant : Prop :=
  State.reset.Inv ∧ ∀ (p : Params) (s : State), instantiate p = .next s → s.Inv

/-- Every step of the engine keeps the invariant: the framebuffer list canonical, on the canvas and free of written
255s, `CAUSE` agreeing with `FAULT`, `BUSY` 0, `cp` in the stream, the configuration legal. -/
def Obligations.EveryStepKeepsTheInvariant : Prop :=
  ∀ s t : State, s.Inv → step s = .next t → t.Inv

/-- Every move of the whole system keeps the invariant: an engine step, ISSUE, READOUT, READSTATUS, RESET. -/
def Obligations.EveryMoveKeepsTheInvariant : Prop :=
  ∀ (a : Action) (s t : State), s.Inv → act a s = .next t → t.Inv

/-- Every state that a legal instance reaches from its reset, by whatever moves, meets the invariant. -/
def Obligations.EveryReachableStateMeetsTheInvariant : Prop :=
  ∀ s : State, Reachable s → s.Inv

/-- R196: the engine is never stuck, and a stream runs to its end: after as many steps as there are commands left the
engine has halted on a fault or the run is final. That a step of a halted engine answers a next state, the same, is the
model's reading (log 7, DEDUCED). -/
def Obligations.EveryStreamRunsToItsEnd : Prop :=
  ∀ s : State, s.Inv →
    ∃ t, Host.Core.run core (s.stream.length - s.cp) s = .next t ∧ (t.halted = true ∨ t.final = true)

/-- R22: no command writes the value 255: a cell that a command changes holds another value afterwards. -/
def Obligations.NoCommandWrites255 : Prop :=
  ∀ (i : Instr) (s : State), ∃ t, exec i s = .next t ∧
    ∀ cell, t.fbCell cell ≠ s.fbCell cell → t.fbCell cell ≠ 255

/-- R22: if every cell of the canvas and every colour a command supplies is in the palette (0 to 215, or 255), so is
every cell of the canvas after it; without the host's part it is not so (FILL 230 stores 230). -/
def Obligations.PaletteCleanCommandsKeepThePalette : Prop :=
  (∀ (i : Instr) (s : State), colorsInPalette i = true →
    (∀ cell, cell < s.cfg.wf * s.cfg.hf → inPalette (s.fbCell cell) = true) →
    ∃ t, exec i s = .next t ∧ ∀ cell, cell < s.cfg.wf * s.cfg.hf → inPalette (t.fbCell cell) = true) ∧
  (∀ s : State, 0 < s.cfg.wf * s.cfg.hf → ∃ t, exec (.fill 230) s = .next t ∧ inPalette (t.fbCell 0) = false)

/-- R23, R58: the engine never reads the framebuffer. Run one command from two states that differ only in their
framebuffer contents: everything else ends alike, and each cell either takes one and the same value in both or is left
in both. -/
def Obligations.CommandsNeverReadTheFramebuffer : Prop :=
  ∀ (i : Instr) (s : State) (fb : Memory) (draw : Nat),
    ∃ t u, exec i s = .next t ∧ exec i { s with fb := fb, fbDraw := draw } = .next u ∧
      u = { t with fb := u.fb, fbDraw := draw } ∧
      ∀ cell, t.fbCell cell = u.fbCell cell ∨
        (t.fbCell cell = s.fbCell cell ∧ u.fbCell cell = State.fbCell { s with fb := fb, fbDraw := draw } cell)

/-! ### The atlas -/

/-- R123: `INRANGE(tile)` holds exactly when every footprint index lies inside the atlas. -/
def Obligations.InRangeMeansTheFootprintFits : Prop :=
  ∀ (p : Params) (tile : Nat), inRange p tile ↔
    ∀ ex ey : Nat, ex ≤ 7 → ey ≤ 7 → tileOffset p tile + ex + ey * p.w < p.w * p.h

/-- R121, R123, R125: with an atlas 256 wide the 32-column formula is the image's own grid, and a tile is in range
exactly when its row of tiles exists. -/
def Obligations.AtlasOf256ColumnsIsAGridOfTiles : Prop :=
  ∀ (p : Params) (tile : Nat), p.w = 256 →
    (tileOffset p tile % 256 = tile % 32 * 8 ∧ tileOffset p tile / 256 = tile / 32 * 8) ∧
    (inRange p tile ↔ tile / 32 * 8 + 8 ≤ p.h)

/-- R54, R124: the lane selector `L` picks `code[8L+7:8L]`. -/
def Obligations.LaneSelectorPicksItsByte : Prop :=
  ∀ (code : Code) (l : Lane), laneColor code l = code.extractLsb' (8 * l.toNat) 8

/-- R33, R120: a loaded atlas holds `LANE(channel) = channel div 64` at every cell, in row-major order. That a load
fails without a channel value per pixel is the model's reading of a failed load (R126, log 17). -/
def Obligations.LoaderStoresTheLaneOfEveryChannelValue : Prop :=
  ∀ (p : Params) (im : Image),
    (im.channel.length = im.width * im.height →
      ∃ q, loadAtlas p (some im) = some q ∧ q.w = im.width ∧ q.h = im.height ∧ q.wf = p.wf ∧ q.hf = p.hf ∧
        ∀ (ax ay : Nat) (c : Byte) (inside : ax + ay * im.width < q.atlasCells), ax < im.width →
          im.channel[ax + ay * im.width]? = some c →
          (pixelAt q (ax + ay * im.width) inside).toNat = c.toNat / 64) ∧
    (im.channel.length ≠ im.width * im.height → loadAtlas p (some im) = none)

/-! ### The palette codec and the assembler -/

/-- R110: SCC of a negative descriptor is 255; of digits `r g b` at most 5 it is `r*36 + g*6 + b`; it never gives a
value from 216 to 254. -/
def Obligations.SccReadsBaseSixDigits : Prop :=
  (∀ n : Int, n < 0 → scc n = some 255) ∧
  (∀ r g b : Nat, r ≤ 5 → g ≤ 5 → b ≤ 5 →
    scc ((r * 100 + g * 10 + b : Nat) : Int) = some (BitVec.ofNat 8 (r * 36 + g * 6 + b))) ∧
  (∀ (n : Int) (v : Byte), scc n = some v → (n < 0 ∧ v = 255) ∨ (0 ≤ n ∧ v.toNat ≤ 215))

/-- R112: SCC has a value exactly for a negative descriptor or one with all digits at most 5, and maps the 216 valid
non-negative descriptors one-to-one onto 0 to 215. -/
def Obligations.SccIsABijectionOntoThePalette : Prop :=
  (∀ n : Int, (scc n).isSome = true ↔
    n < 0 ∨ ∃ r g b : Nat, r ≤ 5 ∧ g ≤ 5 ∧ b ≤ 5 ∧ n = ((r * 100 + g * 10 + b : Nat) : Int)) ∧
  (∀ v : Nat, v ≤ 215 → ∃ n : Int, 0 ≤ n ∧ scc n = some (BitVec.ofNat 8 v)) ∧
  (∀ (n m : Int) (v : Byte), 0 ≤ n → 0 ≤ m → scc n = some v → scc m = some v → n = m)

/-- R111: LCC puts SCC of its first argument in lane 0 up to its fourth in lane 3, and is refused exactly if one of the
four is. -/
def Obligations.LccPacksFourLanes : Prop :=
  ∀ c1 c2 c3 c4 : Int,
    (∀ code, lcc c1 c2 c3 c4 = some code →
      scc c1 = some (laneColor code 0) ∧ scc c2 = some (laneColor code 1) ∧
      scc c3 = some (laneColor code 2) ∧ scc c4 = some (laneColor code 3)) ∧
    (lcc c1 c2 c3 c4 = none ↔ scc c1 = none ∨ scc c2 = none ∨ scc c3 = none ∨ scc c4 = none)

/-- R92: the assembler gives a command exactly one descriptor, which decodes to it, if every operand fits its field, and
refuses it otherwise. A line of text assembles to a descriptor exactly if its own mnemonic and operands build a command
whose operands fit, and the descriptor is that command's, which decodes to it. -/
def Obligations.AssembledCommandsDecode : Prop :=
  (∀ i : Instr, (i.wellFormed = true → ∃ d, assembleInstr i = .ok d ∧ decode d = .ok i) ∧
    (i.wellFormed = false → assembleInstr i = .error .operandRange)) ∧
  (∀ (line : List Char) (d : Descriptor), assembleLine line = .ok (some d) ↔
    ∃ mnemonic operands i, parseLine line = .ok (some (mnemonic, operands)) ∧
      buildCommand mnemonic operands = .ok i ∧ i.wellFormed = true ∧ d = encode i ∧ decode d = .ok i)

/-- R91, R92: literal operands in the order of the document's argument lists build the command they spell, and a colour
outside 0 to 255, a code outside 32 bits, a negative tile or scale, or a flag that is neither 0 nor 1 is refused. Whether
the built command fits its fields is the next test (`AssembledCommandsDecode`). That any literal of value 0 or 1 spells a
flag is the model's choice (log 16). -/
def Obligations.LiteralOperandsBuildTheirCommand : Prop :=
  ∀ (x y w h : Int) (tile scale : Nat) (color : Byte) (code : Code) (mx my off : Bool),
    let c := Operand.literal color.toNat
    let flag := fun b : Bool => Operand.literal (if b then 1 else 0)
    buildCommand "fill".toList [c] = .ok (.fill color) ∧
    buildCommand "FILLRECT".toList [.literal x, .literal y, .literal w, .literal h, c, flag off] =
      .ok (.fillrect x y w h color off) ∧
    buildCommand "blit".toList [.literal x, .literal y, .literal tile, .literal code.toNat, flag mx, flag my,
      .literal scale, flag off] = .ok (.blit x y tile code mx my scale off) ∧
    buildCommand "scrollto".toList [.literal x, .literal y] = .ok (.scrollto x y) ∧
    (x < 0 ∨ 255 < x → buildCommand "fill".toList [.literal x] = .error .operandRange) ∧
    (x < 0 ∨ 0xFFFFFFFF < x → codeOperand (.literal x) = .error .operandRange) ∧
    (x ≠ 0 → x ≠ 1 → flagOperand (.literal x) = .error .operandRange) ∧
    (x < 0 → natOperand (.literal x) = .error .operandRange)

/-! ### Host actions, status and reset -/

/-- R162: READOUT returns `Wf*Hf` bytes, byte `i` being `FB[i]`, and changes nothing if contents persist. Otherwise every
cell is unspecified afterwards (R194), in the form of log 4 (DESIGN CHOICE): the free values of the next draw. That there
is no READOUT while `BUSY = 1` is the spec's assumption about the host (R193), in the form of log 6: a named fault. -/
def Obligations.ReadoutReturnsTheFramebuffer : Prop :=
  ∀ s : State, s.readout.length = s.cfg.wf * s.cfg.hf ∧
    (∀ i, i < s.cfg.wf * s.cfg.hf → s.readout[i]? = some (s.fbCell i)) ∧
    (s.status.busy = false → s.cfg.persist = true → act .readout s = .next s) ∧
    (s.status.busy = false → s.cfg.persist = false →
      ∃ t, act .readout s = .next t ∧ t = { s with fb := [], fbDraw := s.fbDraw + 1 } ∧
        ∀ cell, t.fbCell cell = Config.freeCell (s.fbDraw + 1) cell) ∧
    (s.status.busy = true → act .readout s = .fault .readoutWhileBusy)

/-- R26, R163: READSTATUS returns `BUSY` in bit 0, `FAULT` in bit 1, `CAUSE` in bits 7:4 and 0 in every other bit, and
changes nothing. -/
def Obligations.StatusWordHoldsItsFields : Prop :=
  ∀ s : State, act .readStatus s = .next s ∧
    s.readStatus.getLsbD 0 = s.status.busy ∧ s.readStatus.getLsbD 1 = s.status.fault ∧
    s.readStatus.extractLsb' 4 4 = s.status.cause ∧ s.readStatus.extractLsb' 2 2 = 0 ∧
    s.readStatus.extractLsb' 8 24 = 0

/-- R190, R191: RESET is possible in every state and leaves scroll 0, `STATUS = 0`, `cp = 0`, no pending descriptor,
every cell unspecified afresh, and the configuration as it was. A fresh unspecified cell has the form of log 4 (DESIGN
CHOICE): the free value of another draw. -/
def Obligations.ResetLeavesTheResetState : Prop :=
  ∀ s : State, ∃ t, act .reset s = .next t ∧ t.scrollX = 0 ∧ t.scrollY = 0 ∧ t.readStatus = 0 ∧ t.cp = 0 ∧
    t.stream = [] ∧ t.cfg = s.cfg ∧ t.fbDraw ≠ s.fbDraw ∧
    ∀ cell, t.fbCell cell = Config.freeCell t.fbDraw cell

/-- R41, R42: the state right after reset. The configuration it has is the model's choice (log 2). -/
def Obligations.ResetStateIsZero : Prop :=
  State.reset.scrollX = 0 ∧ State.reset.scrollY = 0 ∧ State.reset.readStatus = 0 ∧ State.reset.cp = 0

/-- R6, R182: a configuration with `W` or `H` no multiple of 8, or an empty canvas, is refused when the instance is
made, and the engine takes no step with it. -/
def Obligations.IllegalConfigurationsAreRefused : Prop :=
  ∀ p : Params, (p.w % 8 ≠ 0 ∨ p.h % 8 ≠ 0 ∨ p.wf = 0 ∨ p.hf = 0) →
    instantiate p = .refused .illegalConfiguration ∧
    ∀ s : State, s.cfg = p → step s = .refused .illegalConfiguration

/-- R67, R185: a move of one instance leaves every other instance as it was. -/
def Obligations.InstancesShareNothing : Prop :=
  ∀ (k j : Nat) (a : Action) (instances after : List State), actOn k a instances = .next after → j ≠ k →
    after[j]? = instances[j]?
end

