-- ==== Sys2Proof/Laws/Memory.lean ====
section
/-! SUPPORT. The framebuffer list: reading after a write, after an overlay and after painting; every operation keeps
the canonical form; lists in canonical form that read alike are equal. -/

namespace Sys2Proof.Machine

@[simp] theorem Memory.read_nil (a : Nat) : Memory.read [] a = none := rfl

theorem Memory.read_cons (b : Nat) (v : Byte) (m : Memory) (a : Nat) :
    Memory.read ((b, v) :: m) a = if a = b then some v else Memory.read m a := rfl

theorem Memory.risingFrom_cons (lo a : Nat) (v : Byte) (m : Memory) :
    Memory.risingFrom lo ((a, v) :: m) = true ↔ lo ≤ a ∧ Memory.risingFrom (a + 1) m = true := by
  simp [Memory.risingFrom]

theorem Memory.risingFrom_mono {lo lo' : Nat} {m : Memory} (h : Memory.risingFrom lo m = true) (hl : lo' ≤ lo) :
    Memory.risingFrom lo' m = true := by
  cases m with
  | nil => rfl
  | cons c m =>
    rw [Memory.risingFrom_cons] at h ⊢
    exact ⟨by omega, h.2⟩

/-- Below its lower bound a rising list holds nothing. -/
theorem Memory.read_below {lo : Nat} {m : Memory} (h : Memory.risingFrom lo m = true) {k : Nat} (hk : k < lo) :
    m.read k = none := by
  induction m generalizing lo with
  | nil => rfl
  | cons c m ih =>
    rw [Memory.risingFrom_cons] at h
    rw [Memory.read_cons, if_neg (by omega)]
    exact ih h.2 (by omega)

theorem Memory.read_append (m m' : Memory) (k : Nat) :
    Memory.read (m ++ m') k = (m.read k).or (m'.read k) := by
  induction m with
  | nil => simp
  | cons c m ih =>
    rw [List.cons_append, Memory.read_cons, Memory.read_cons, ih]
    split <;> simp

/-- Read after write: the written cell gives the value, every other cell is left alone. -/
theorem Memory.read_write (m : Memory) (a : Nat) (v : Byte) (k : Nat) :
    (m.write a v).read k = if k = a then some v else m.read k := by
  induction m with
  | nil => rfl
  | cons c m ih =>
    obtain ⟨b, w⟩ := c
    simp only [Memory.write]
    split
    · rw [Memory.read_cons]
    · split
      · subst b
        simp only [Memory.read_cons]
        split <;> rfl
      · simp only [Memory.read_cons, ih]
        split <;> split <;> first | rfl | omega

theorem Memory.write_risingFrom {lo : Nat} {m : Memory} {a : Nat} (v : Byte)
    (h : Memory.risingFrom lo m = true) (ha : lo ≤ a) : Memory.risingFrom lo (m.write a v) = true := by
  induction m generalizing lo with
  | nil => simp [Memory.write, Memory.risingFrom, ha]
  | cons c m ih =>
    obtain ⟨b, w⟩ := c
    rw [Memory.risingFrom_cons] at h
    simp only [Memory.write]
    split
    · exact (Memory.risingFrom_cons ..).2 ⟨ha, (Memory.risingFrom_cons ..).2 ⟨by omega, h.2⟩⟩
    · split
      · subst b
        exact (Memory.risingFrom_cons ..).2 ⟨ha, h.2⟩
      · exact (Memory.risingFrom_cons ..).2 ⟨h.1, ih h.2 (by omega)⟩

/-- A write keeps the canonical form. -/
theorem Memory.write_wf {m : Memory} (a : Nat) (v : Byte) (h : m.wf = true) : (m.write a v).wf = true :=
  Memory.write_risingFrom v h (Nat.zero_le a)

/-- Two lists in canonical form that read alike are the same list. -/
theorem Memory.ext_of_read {lo : Nat} {m m' : Memory} (h : Memory.risingFrom lo m = true)
    (h' : Memory.risingFrom lo m' = true) (hr : ∀ k, m.read k = m'.read k) : m = m' := by
  induction m generalizing lo m' with
  | nil =>
    cases m' with
    | nil => rfl
    | cons c m' =>
      obtain ⟨b, w⟩ := c
      simpa [Memory.read_cons] using hr b
  | cons c m ih =>
    obtain ⟨a, v⟩ := c
    cases m' with
    | nil => simpa [Memory.read_cons] using hr a
    | cons c' m' =>
      obtain ⟨b, w⟩ := c'
      rw [Memory.risingFrom_cons] at h h'
      have hab : a = b := by
        rcases Nat.lt_trichotomy a b with hlt | heq | hgt
        · have hra := hr a
          rw [Memory.read_cons, if_pos rfl, Memory.read_cons, if_neg (by omega),
            Memory.read_below h'.2 (by omega)] at hra
          cases hra
        · exact heq
        · have hrb := hr b
          rw [Memory.read_cons, if_neg (by omega), Memory.read_cons, if_pos rfl,
            Memory.read_below h.2 (by omega)] at hrb
          cases hrb
      subst b
      have hvw : v = w := by simpa [Memory.read_cons] using hr a
      subst w
      have htail : m = m' := by
        refine ih h.2 h'.2 fun k => ?_
        by_cases hk : k = a
        · subst k
          rw [Memory.read_below h.2 (by omega), Memory.read_below h'.2 (by omega)]
        · simpa [Memory.read_cons, hk] using hr k
      rw [htail]

theorem Memory.wf_ext {m m' : Memory} (h : m.wf = true) (h' : m'.wf = true)
    (hr : ∀ k, m.read k = m'.read k) : m = m' :=
  Memory.ext_of_read h h' hr

theorem Memory.read_takeWhile_lt (m : Memory) {a k : Nat} (hk : a ≤ k) :
    Memory.read (m.takeWhile fun c => decide (c.1 < a)) k = none := by
  induction m with
  | nil => rfl
  | cons c m ih =>
    by_cases hc : c.1 < a
    · rw [List.takeWhile_cons_of_pos (by simpa using hc), Memory.read_cons, if_neg (by omega), ih]
    · rw [List.takeWhile_cons_of_neg (by simpa using hc), Memory.read_nil]

theorem Memory.read_dropHead (m : Memory) {a k : Nat} (hk : k ≠ a) :
    (m.dropHead a).read k = m.read k := by
  cases m with
  | nil => rfl
  | cons c m =>
    simp only [Memory.dropHead]
    split
    · rw [Memory.read_cons, if_neg (by omega)]
    · rfl

theorem Memory.read_split (m : Memory) (a k : Nat) :
    m.read k = (Memory.read (m.takeWhile fun c => decide (c.1 < a)) k).or
      (Memory.read (m.dropWhile fun c => decide (c.1 < a)) k) := by
  rw [← Memory.read_append, List.takeWhile_append_dropWhile]

/-- Read after an overlay: the new entry if there is one, else what was there before. -/
theorem Memory.read_overlay {lo : Nat} {new : Memory} (hnew : Memory.risingFrom lo new = true)
    (old : Memory) (k : Nat) : (Memory.overlay new old).read k = (new.read k).or (old.read k) := by
  induction new generalizing lo old with
  | nil => simp [Memory.overlay]
  | cons c new ih =>
    obtain ⟨a, v⟩ := c
    rw [Memory.risingFrom_cons] at hnew
    simp only [Memory.overlay, Memory.read_append, Memory.read_cons, ih hnew.2]
    rcases Nat.lt_trichotomy k a with hlt | heq | hgt
    · have hne : k ≠ a := by omega
      rw [if_neg hne, Memory.read_below hnew.2 (by omega), Memory.read_dropHead _ hne,
        Memory.read_split old a k]
      simp [hne]
    · subst k
      simp [Memory.read_takeWhile_lt old (Nat.le_refl a)]
    · have hne : k ≠ a := by omega
      rw [if_neg hne, Memory.read_takeWhile_lt old (Nat.le_of_lt hgt),
        Memory.read_dropHead _ hne, Memory.read_split old a k,
        Memory.read_takeWhile_lt old (Nat.le_of_lt hgt)]
      simp [hne]

theorem Memory.risingFrom_rest {lo : Nat} {m : Memory} (h : Memory.risingFrom lo m = true) (a : Nat) :
    Memory.risingFrom (a + 1) (Memory.dropHead a (m.dropWhile fun c => decide (c.1 < a))) = true := by
  induction m generalizing lo with
  | nil => rfl
  | cons c m ih =>
    obtain ⟨b, w⟩ := c
    rw [Memory.risingFrom_cons] at h
    by_cases hc : b < a
    · rw [List.dropWhile_cons_of_pos (by simpa using hc)]
      exact ih h.2
    · rw [List.dropWhile_cons_of_neg (by simpa using hc)]
      simp only [Memory.dropHead]
      split
      · subst b
        exact h.2
      · exact (Memory.risingFrom_cons ..).2 ⟨by omega, h.2⟩

theorem Memory.risingFrom_insert {lo a : Nat} {old m : Memory} (v : Byte)
    (hold : Memory.risingFrom lo old = true) (ha : lo ≤ a) (hm : Memory.risingFrom (a + 1) m = true) :
    Memory.risingFrom lo ((old.takeWhile fun c => decide (c.1 < a)) ++ (a, v) :: m) = true := by
  induction old generalizing lo with
  | nil => exact (Memory.risingFrom_cons ..).2 ⟨ha, hm⟩
  | cons c old ih =>
    obtain ⟨b, w⟩ := c
    rw [Memory.risingFrom_cons] at hold
    by_cases hc : b < a
    · rw [List.takeWhile_cons_of_pos (by simpa using hc), List.cons_append]
      exact (Memory.risingFrom_cons ..).2 ⟨hold.1, ih hold.2 (by omega)⟩
    · rw [List.takeWhile_cons_of_neg (by simpa using hc)]
      exact (Memory.risingFrom_cons ..).2 ⟨ha, hm⟩

/-- An overlay keeps the canonical form. -/
theorem Memory.overlay_risingFrom {lo : Nat} {new old : Memory} (hnew : Memory.risingFrom lo new = true)
    (hold : Memory.risingFrom lo old = true) : Memory.risingFrom lo (Memory.overlay new old) = true := by
  induction new generalizing lo old with
  | nil => exact hold
  | cons c new ih =>
    obtain ⟨a, v⟩ := c
    rw [Memory.risingFrom_cons] at hnew
    exact Memory.risingFrom_insert v hold hnew.1 (ih hnew.2 (Memory.risingFrom_rest hold a))

theorem Memory.mem_of_mem_dropHead {a : Nat} {m : Memory} {c : Host.Cell} (h : c ∈ m.dropHead a) : c ∈ m := by
  cases m with
  | nil => exact h
  | cons d m =>
    simp only [Memory.dropHead] at h
    split at h
    · exact List.mem_cons_of_mem _ h
    · exact h

/-- Every entry of an overlay is a new one or an old one. -/
theorem Memory.mem_overlay {new old : Memory} {c : Host.Cell} (h : c ∈ Memory.overlay new old) :
    c ∈ new ∨ c ∈ old := by
  induction new generalizing old with
  | nil => exact .inr h
  | cons d new ih =>
    simp only [Memory.overlay, List.mem_append, List.mem_cons] at h
    rcases h with h | h | h
    · exact .inr ((List.takeWhile_sublist _).mem h)
    · exact .inl (h ▸ List.mem_cons_self ..)
    · rcases ih h with h | h
      · exact .inl (List.mem_cons_of_mem _ h)
      · exact .inr ((List.dropWhile_sublist _).mem (Memory.mem_of_mem_dropHead h))

theorem risingFrom_filterMap_range' (pixel : Nat → Option Byte) (n a : Nat) :
    Memory.risingFrom a ((List.range' a n).filterMap fun i => (pixel i).map fun v => (i, v)) = true := by
  induction n generalizing a with
  | zero => rfl
  | succ n ih =>
    rw [List.range'_succ]
    cases hp : pixel a with
    | none =>
      rw [List.filterMap_cons_none (by simp [hp])]
      exact Memory.risingFrom_mono (ih (a + 1)) (by omega)
    | some v =>
      rw [List.filterMap_cons_some (b := (a, v)) (by simp [hp])]
      exact (Memory.risingFrom_cons ..).2 ⟨Nat.le_refl a, ih (a + 1)⟩

theorem read_filterMap_range' (pixel : Nat → Option Byte) (n a k : Nat) :
    Memory.read ((List.range' a n).filterMap fun i => (pixel i).map fun v => (i, v)) k =
      if a ≤ k ∧ k < a + n then pixel k else none := by
  induction n generalizing a with
  | zero => rw [if_neg (by omega)]; rfl
  | succ n ih =>
    rw [List.range'_succ]
    cases hp : pixel a with
    | none =>
      rw [List.filterMap_cons_none (by simp [hp]), ih]
      by_cases hk : k = a
      · subst k
        rw [if_neg (by omega), if_pos (by omega), hp]
      · by_cases hr : a + 1 ≤ k ∧ k < a + 1 + n
        · rw [if_pos hr, if_pos (by omega)]
        · rw [if_neg hr, if_neg (by omega)]
    | some v =>
      rw [List.filterMap_cons_some (b := (a, v)) (by simp [hp]), Memory.read_cons, ih]
      by_cases hk : k = a
      · subst k
        rw [if_pos rfl, if_pos (by omega), hp]
      · rw [if_neg hk]
        by_cases hr : a + 1 ≤ k ∧ k < a + 1 + n
        · rw [if_pos hr, if_pos (by omega)]
        · rw [if_neg hr, if_neg (by omega)]

theorem paintedCells_rising (n : Nat) (pixel : Nat → Option Byte) :
    Memory.risingFrom 0 (paintedCells n pixel) = true := by
  unfold paintedCells
  rw [List.range_eq_range']
  exact risingFrom_filterMap_range' pixel n 0

theorem read_paintedCells (n : Nat) (pixel : Nat → Option Byte) (k : Nat) :
    (paintedCells n pixel).read k = if k < n then pixel k else none := by
  unfold paintedCells
  rw [List.range_eq_range', read_filterMap_range']
  simp

theorem mem_paintedCells {n : Nat} {pixel : Nat → Option Byte} {c : Host.Cell} :
    c ∈ paintedCells n pixel ↔ c.1 < n ∧ pixel c.1 = some c.2 := by
  unfold paintedCells
  simp only [List.mem_filterMap, List.mem_range, Option.map_eq_some_iff]
  constructor
  · rintro ⟨a, ha, v, hv, rfl⟩
    exact ⟨ha, hv⟩
  · rintro ⟨ha, hv⟩
    exact ⟨c.1, ha, c.2, hv, rfl⟩

/-- Read after painting: the pixel's colour where the pixel function gives one, else what was there before. -/
theorem read_paint (p : Params) (pixel : Int → Int → Option Byte) (m : Memory) (a : Nat) :
    (paint p pixel m).read a =
      (if a < p.cells then pixel ((a % p.wf : Nat) : Int) ((a / p.wf : Nat) : Int) else none).or (m.read a) := by
  unfold paint
  rw [Memory.read_overlay (paintedCells_rising _ _), read_paintedCells]

/-- Painting keeps the canonical form. -/
theorem paint_wf {p : Params} {pixel : Int → Int → Option Byte} {m : Memory} (h : m.wf = true) :
    (paint p pixel m).wf = true :=
  Memory.overlay_risingFrom (paintedCells_rising _ _) h

theorem mem_paint {p : Params} {pixel : Int → Int → Option Byte} {m : Memory} {c : Host.Cell}
    (h : c ∈ paint p pixel m) :
    (c.1 < p.cells ∧ pixel ((c.1 % p.wf : Nat) : Int) ((c.1 / p.wf : Nat) : Int) = some c.2) ∨ c ∈ m := by
  rcases Memory.mem_overlay h with h | h
  · exact .inl (mem_paintedCells.1 h)
  · exact .inr h

theorem Memory.within_iff {n : Nat} {m : Memory} : m.within n = true ↔ ∀ c ∈ m, c.1 < n := by
  simp [Memory.within]

/-- Painting stays inside the canvas. -/
theorem paint_within {p : Params} {pixel : Int → Int → Option Byte} {m : Memory}
    (h : m.within p.cells = true) : (paint p pixel m).within p.cells = true := by
  rw [Memory.within_iff] at h ⊢
  intro c hc
  rcases mem_paint hc with hc | hc
  · exact hc.1
  · exact h c hc

/-- A painted framebuffer cell: the pixel's colour where the pixel function gives one, else the cell as before. -/
theorem fbCell_paint (s : State) (pixel : Int → Int → Option Byte) (a : Nat) :
    (s.paint pixel).fbCell a =
      if a < s.cfg.cells then
        (pixel ((a % s.cfg.wf : Nat) : Int) ((a / s.cfg.wf : Nat) : Int)).getD (s.fbCell a)
      else s.fbCell a := by
  unfold State.fbCell State.paint
  simp only [read_paint]
  split
  · cases pixel _ _ <;> simp
  · simp

end Sys2Proof.Machine
end

