-- ==== Sys2Proof/Laws/Draw.lean ====
section
/-! SUPPORT. The drawing operations: what the shared operand functions answer, which cell a canvas pixel is, what the
literal loops' single writes do, and one inversion lemma for all meanings. -/

namespace Sys2Proof.Machine

@[simp] theorem opaqueColor_transparent : opaqueColor transparent = none := rfl

theorem opaqueColor_of_ne {c : Byte} (h : c ≠ transparent) : opaqueColor c = some c := if_neg h

theorem opaqueColor_eq_some {c v : Byte} : opaqueColor c = some v ↔ c = v ∧ c ≠ transparent := by
  unfold opaqueColor
  split <;> simp_all

theorem mem_intRange {a b v : Int} : v ∈ intRange a b ↔ a ≤ v ∧ v < b := by
  simp only [intRange, List.mem_map, List.mem_range]
  constructor
  · rintro ⟨k, hk, rfl⟩
    omega
  · intro h
    exact ⟨(v - a).toNat, by omega, by omega⟩

theorem onCanvas_iff {p : Params} {px py : Int} :
    onCanvas p px py = true ↔ 0 ≤ px ∧ px < p.wf ∧ 0 ≤ py ∧ py < p.hf := by
  simp [onCanvas, and_assoc]

theorem inRect_iff {x y w h px py : Int} :
    inRect x y w h px py = true ↔ x ≤ px ∧ px < x + w ∧ y ≤ py ∧ py < y + h := by
  simp [inRect, and_assoc]

/-- The cell index of a canvas pixel given by natural coordinates. -/
theorem pixelCell_natCast (p : Params) (px py : Nat) : pixelCell p px py = px + py * p.wf := by
  unfold pixelCell
  exact_mod_cast Int.toNat_natCast (px + py * p.wf)

theorem canvasCell_lt {p : Params} {px py : Nat} (hx : px < p.wf) (hy : py < p.hf) :
    px + py * p.wf < p.cells := by
  have hrow : (py + 1) * p.wf ≤ p.hf * p.wf := Nat.mul_le_mul_right _ hy
  rw [Nat.succ_mul] at hrow
  unfold Params.cells
  rw [Nat.mul_comm p.wf p.hf]
  omega

theorem canvasCell_mod {p : Params} {px : Nat} (py : Nat) (hx : px < p.wf) : (px + py * p.wf) % p.wf = px := by
  rw [Nat.add_mul_mod_self_right, Nat.mod_eq_of_lt hx]

theorem canvasCell_div {p : Params} {px : Nat} (py : Nat) (hx : px < p.wf) : (px + py * p.wf) / p.wf = py := by
  rw [Nat.add_mul_div_right _ _ (by omega), Nat.div_eq_of_lt hx, Nat.zero_add]

/-- Every cell of the framebuffer is a pixel of the canvas (R21). -/
theorem cell_pixel {p : Params} {a : Nat} (ha : a < p.cells) : a % p.wf < p.wf ∧ a / p.wf < p.hf := by
  unfold Params.cells at ha
  have hwf : 0 < p.wf := Nat.pos_of_ne_zero fun h => by simp [h] at ha
  exact ⟨Nat.mod_lt _ hwf, Nat.div_lt_of_lt_mul ha⟩

/-- A painted canvas pixel. -/
theorem fbCell_paint_pixel (s : State) (pixel : Int → Int → Option Byte) {px py : Nat}
    (hx : px < s.cfg.wf) (hy : py < s.cfg.hf) :
    (s.paint pixel).fbCell (px + py * s.cfg.wf) = (pixel px py).getD (s.fbCell (px + py * s.cfg.wf)) := by
  rw [fbCell_paint, if_pos (canvasCell_lt hx hy), canvasCell_mod py hx, canvasCell_div py hx]

/-- A cell off the canvas is never painted. -/
theorem fbCell_paint_off (s : State) (pixel : Int → Int → Option Byte) {a : Nat} (ha : s.cfg.cells ≤ a) :
    (s.paint pixel).fbCell a = s.fbCell a := by
  rw [fbCell_paint, if_neg (by omega)]

/-- The source coordinate of an offset: the one whose block of `scale` pixels holds it (R142, R144). -/
theorem sourceCoord_eq_some {scale : Nat} {u : Int} {c : Fin 8} :
    sourceCoord scale u = some c ↔
      (c.val * scale : Int) ≤ u ∧ u < (c.val * scale : Int) + scale := by
  obtain ⟨n, hn⟩ := c
  unfold sourceCoord
  split
  case isTrue h =>
    obtain ⟨m, rfl⟩ := Int.eq_ofNat_of_zero_le h.1
    have hk : 0 < scale := Nat.pos_of_ne_zero fun h0 => by subst h0; simp at h; omega
    simp only [Option.some.injEq, Fin.mk.injEq, Int.toNat_natCast]
    rw [Nat.div_eq_iff hk]
    have hmul : ((n * scale : Nat) : Int) = (n : Int) * scale := by push_cast; rfl
    rw [← hmul]
    omega
  case isFalse h =>
    constructor
    · intro hc
      cases hc
    · rintro ⟨h1, h2⟩
      have hlow : (0 : Int) ≤ (n : Int) * scale := by positivity
      have hhigh : (n : Int) * scale + scale ≤ 8 * scale := by
        have : ((n : Int) + 1) * scale ≤ 8 * scale := by
          apply mul_le_mul_of_nonneg_right <;> omega
        linarith
      simp only at h1 h2
      exact absurd ⟨by omega, by omega⟩ h

theorem mirrorCoord_val (mirrored : Bool) (c : Fin 8) :
    (mirrorCoord mirrored c).val = if mirrored then 7 - c.val else c.val := by
  cases mirrored <;> rfl

/-- Reading after a loop of writes: if every turn `x` sets the cells of `V x` to the one value `F` gives them, the loop
sets the cells of any turn and leaves the others. -/
theorem read_foldl_writes {α : Type} {F : Nat → Byte} {V : α → Nat → Prop} {turn : Memory → α → Memory}
    (hin : ∀ m x a, V x a → (turn m x).read a = some (F a))
    (hout : ∀ m x a, ¬ V x a → (turn m x).read a = m.read a) (l : List α) (m : Memory) (a : Nat) :
    ((∃ x ∈ l, V x a) → (l.foldl turn m).read a = some (F a)) ∧
    ((¬ ∃ x ∈ l, V x a) → (l.foldl turn m).read a = m.read a) := by
  induction l generalizing m with
  | nil => exact ⟨fun ⟨x, hx, _⟩ => (List.not_mem_nil hx).elim, fun _ => rfl⟩
  | cons x l ih =>
    rw [List.foldl_cons]
    by_cases hl : ∃ y ∈ l, V y a
    · refine ⟨fun _ => (ih _).1 hl, fun hn => absurd ?_ hn⟩
      obtain ⟨y, hy, hv⟩ := hl
      exact ⟨y, List.mem_cons_of_mem _ hy, hv⟩
    · rw [(ih _).2 hl]
      refine ⟨fun ⟨y, hy, hv⟩ => ?_, fun hn => hout m x a fun hv => hn ⟨x, List.mem_cons_self .., hv⟩⟩
      rcases List.mem_cons.1 hy with rfl | hy
      · exact hin m y a hv
      · exact absurd ⟨y, hy, hv⟩ hl

/-- A loop keeps the canonical form if every turn does. -/
theorem foldl_wf {α : Type} {turn : Memory → α → Memory} (hturn : ∀ m x, m.wf = true → (turn m x).wf = true)
    (l : List α) {m : Memory} (h : m.wf = true) : (l.foldl turn m).wf = true := by
  induction l generalizing m with
  | nil => exact h
  | cons x l ih => exact ih (hturn m x h)

/-- A clipped write: the pixel's cell if it lies on the canvas, every other cell as before. -/
theorem read_clippedWrite (p : Params) (color : Byte) (m : Memory) (px py : Int) (a : Nat) :
    (clippedWrite p color m px py).read a =
      if onCanvas p px py = true ∧ a = pixelCell p px py then some color else m.read a := by
  unfold clippedWrite
  by_cases h : onCanvas p px py = true
  · simp [h, Memory.read_write]
  · simp [h]

theorem clippedWrite_wf {p : Params} {color : Byte} {m : Memory} (px py : Int) (h : m.wf = true) :
    (clippedWrite p color m px py).wf = true := by
  unfold clippedWrite
  split
  · exact Memory.write_wf _ _ h
  · exact h

theorem sourceColor_ne_transparent {p : Params} {tile : Nat} {inside : inRange p tile} {code : Code}
    {mx my : Bool} {sx sy : Fin 8} {v : Byte}
    (h : sourceColor p tile inside code mx my sx sy = some v) : v ≠ transparent := by
  obtain ⟨rfl, hv⟩ := opaqueColor_eq_some.1 h
  exact hv

theorem blitPixel_ne_transparent {p : Params} {tile : Nat} {inside : inRange p tile} {code : Code}
    {mx my : Bool} {scale : Nat} {x y px py : Int} {v : Byte}
    (h : blitPixel p tile inside code mx my scale x y px py = some v) : v ≠ transparent := by
  unfold blitPixel at h
  split at h
  · exact sourceColor_ne_transparent h
  · cases h

theorem rectPixel_ne_transparent {x y w h : Int} {color : Byte} {px py : Int} {v : Byte}
    (hv : rectPixel x y w h color px py = some v) : v ≠ transparent := by
  unfold rectPixel at hv
  split at hv
  · obtain ⟨rfl, hne⟩ := opaqueColor_eq_some.1 hv
    exact hne
  · cases hv

theorem execFill_eq (color : Byte) (s : State) :
    exec (.fill color) s = .next (s.paint fun _ _ => opaqueColor color).complete := rfl

theorem execFillrect_eq (x y w h : Int) (color : Byte) (off : Bool) (s : State) :
    exec (.fillrect x y w h color off) s =
      .next (s.paint (rectPixel (originX off x s) (originY off y s) w h color)).complete := rfl

theorem execBlit_badScale (x y : Int) (tile : Nat) (code : Code) (mx my off : Bool) (s : State) :
    exec (.blit x y tile code mx my 0 off) s = .next (s.raiseFault .badScale) := rfl

theorem execBlit_inRange {x y : Int} {tile : Nat} {code : Code} {mx my : Bool} {scale : Nat} {off : Bool}
    {s : State} (hs : scale ≠ 0) (inside : inRange s.cfg tile) :
    exec (.blit x y tile code mx my scale off) s = .next (s.paint
      (blitPixel s.cfg tile inside code mx my scale (originX off x s) (originY off y s))).complete := by
  show execBlit x y tile code mx my scale off s = _
  rw [execBlit, if_neg hs, dif_pos inside]

theorem execBlit_atlasRange {x y : Int} {tile : Nat} {code : Code} {mx my : Bool} {scale : Nat} {off : Bool}
    {s : State} (hs : scale ≠ 0) (outside : ¬ inRange s.cfg tile) :
    exec (.blit x y tile code mx my scale off) s = .next (s.raiseFault .atlasRange) := by
  show execBlit x y tile code mx my scale off s = _
  rw [execBlit, if_neg hs, dif_neg outside]

theorem execScrollto_eq (x y : Int) (s : State) :
    exec (.scrollto x y) s =
      .next ({ s with scrollX := BitVec.ofInt 16 x, scrollY := BitVec.ofInt 16 y } : State).complete := rfl

/-- Everything a command can do: a draw that never writes 255, SCROLLTO, or fault entry. -/
theorem exec_cases {i : Instr} {s t : State} (h : exec i s = .next t) :
    (∃ pixel : Int → Int → Option Byte, (∀ px py v, pixel px py = some v → v ≠ transparent) ∧
      (∀ x y, i ≠ .scrollto x y) ∧ t = (s.paint pixel).complete) ∨
    (∃ x y, i = .scrollto x y ∧
      t = ({ s with scrollX := BitVec.ofInt 16 x, scrollY := BitVec.ofInt 16 y } : State).complete) ∨
    (∃ c, (∀ x y, i ≠ .scrollto x y) ∧ t = s.raiseFault c) := by
  cases i with
  | fill color =>
    rw [execFill_eq] at h
    cases h
    exact .inl ⟨_, fun _ _ v hv => (opaqueColor_eq_some.1 hv).1 ▸ (opaqueColor_eq_some.1 hv).2, by simp, rfl⟩
  | fillrect x y w h' color off =>
    rw [execFillrect_eq] at h
    cases h
    exact .inl ⟨_, fun _ _ _ hv => rectPixel_ne_transparent hv, by simp, rfl⟩
  | blit x y tile code mx my scale off =>
    by_cases hs : scale = 0
    · subst hs
      rw [execBlit_badScale] at h
      cases h
      exact .inr (.inr ⟨_, by simp, rfl⟩)
    · by_cases inside : inRange s.cfg tile
      · rw [execBlit_inRange hs inside] at h
        cases h
        exact .inl ⟨_, fun _ _ _ hv => blitPixel_ne_transparent hv, by simp, rfl⟩
      · rw [execBlit_atlasRange hs inside] at h
        cases h
        exact .inr (.inr ⟨_, by simp, rfl⟩)
  | scrollto x y =>
    rw [execScrollto_eq] at h
    cases h
    exact .inr (.inl ⟨x, y, rfl, rfl⟩)

/-- No command reads or writes the stream. -/
theorem exec_stream {i : Instr} {s t : State} (h : exec i s = .next t) (ds : List Descriptor) :
    t.stream = s.stream ∧ exec i { s with stream := ds } = .next { t with stream := ds } := by
  cases i with
  | fill color =>
    cases h
    exact ⟨rfl, rfl⟩
  | fillrect x y w h' color off =>
    cases h
    exact ⟨rfl, rfl⟩
  | blit x y tile code mx my scale off =>
    by_cases hs : scale = 0
    · subst hs
      cases h
      exact ⟨rfl, rfl⟩
    · by_cases inside : inRange s.cfg tile
      · rw [execBlit_inRange hs inside] at h
        cases h
        exact ⟨rfl, execBlit_inRange (s := { s with stream := ds }) hs inside⟩
      · rw [execBlit_atlasRange hs inside] at h
        cases h
        exact ⟨rfl, execBlit_atlasRange (s := { s with stream := ds }) hs inside⟩
  | scrollto x y =>
    cases h
    exact ⟨rfl, rfl⟩

/-- Every command answers a next state. -/
theorem exec_next (i : Instr) (s : State) : ∃ t, exec i s = .next t := by
  cases i with
  | fill color => exact ⟨_, rfl⟩
  | fillrect x y w h color off => exact ⟨_, rfl⟩
  | blit x y tile code mx my scale off =>
    by_cases hs : scale = 0
    · subst hs
      exact ⟨_, rfl⟩
    · by_cases inside : inRange s.cfg tile
      · exact ⟨_, execBlit_inRange hs inside⟩
      · exact ⟨_, execBlit_atlasRange hs inside⟩
  | scrollto x y => exact ⟨_, rfl⟩

end Sys2Proof.Machine
end

