-- ==== Sys2Proof/Laws/State.lean ====
section
/-! SUPPORT. One lemma per field per update of the state, true by unfolding, so that no later proof unfolds a record
update. -/

namespace Sys2Proof.Machine

section Accept
@[simp] theorem State.accept_cfg (s : State) : s.accept.cfg = s.cfg := rfl
@[simp] theorem State.accept_fb (s : State) : s.accept.fb = s.fb := rfl
@[simp] theorem State.accept_fbDraw (s : State) : s.accept.fbDraw = s.fbDraw := rfl
@[simp] theorem State.accept_scrollX (s : State) : s.accept.scrollX = s.scrollX := rfl
@[simp] theorem State.accept_scrollY (s : State) : s.accept.scrollY = s.scrollY := rfl
@[simp] theorem State.accept_status (s : State) : s.accept.status = s.status.accepted := rfl
@[simp] theorem State.accept_cp (s : State) : s.accept.cp = s.cp := rfl
@[simp] theorem State.accept_stream (s : State) : s.accept.stream = s.stream := rfl
end Accept

section Complete
@[simp] theorem State.complete_cfg (s : State) : s.complete.cfg = s.cfg := rfl
@[simp] theorem State.complete_fb (s : State) : s.complete.fb = s.fb := rfl
@[simp] theorem State.complete_fbDraw (s : State) : s.complete.fbDraw = s.fbDraw := rfl
@[simp] theorem State.complete_scrollX (s : State) : s.complete.scrollX = s.scrollX := rfl
@[simp] theorem State.complete_scrollY (s : State) : s.complete.scrollY = s.scrollY := rfl
@[simp] theorem State.complete_status (s : State) : s.complete.status = s.status.completed := rfl
@[simp] theorem State.complete_cp (s : State) : s.complete.cp = s.cp + 1 := rfl
@[simp] theorem State.complete_stream (s : State) : s.complete.stream = s.stream := rfl
end Complete

section RaiseFault
@[simp] theorem State.raiseFault_cfg (s : State) (c : Cause) : (s.raiseFault c).cfg = s.cfg := rfl
@[simp] theorem State.raiseFault_fb (s : State) (c : Cause) : (s.raiseFault c).fb = s.fb := rfl
@[simp] theorem State.raiseFault_fbDraw (s : State) (c : Cause) : (s.raiseFault c).fbDraw = s.fbDraw := rfl
@[simp] theorem State.raiseFault_scrollX (s : State) (c : Cause) : (s.raiseFault c).scrollX = s.scrollX := rfl
@[simp] theorem State.raiseFault_scrollY (s : State) (c : Cause) : (s.raiseFault c).scrollY = s.scrollY := rfl
@[simp] theorem State.raiseFault_status (s : State) (c : Cause) :
    (s.raiseFault c).status = Status.faulted c := rfl
@[simp] theorem State.raiseFault_cp (s : State) (c : Cause) : (s.raiseFault c).cp = s.cp := rfl
@[simp] theorem State.raiseFault_stream (s : State) (c : Cause) : (s.raiseFault c).stream = s.stream := rfl
end RaiseFault

section Paint
variable (s : State) (pixel : Int → Int → Option Byte)
@[simp] theorem State.paint_cfg : (s.paint pixel).cfg = s.cfg := rfl
@[simp] theorem State.paint_fb : (s.paint pixel).fb = Machine.paint s.cfg pixel s.fb := rfl
@[simp] theorem State.paint_fbDraw : (s.paint pixel).fbDraw = s.fbDraw := rfl
@[simp] theorem State.paint_scrollX : (s.paint pixel).scrollX = s.scrollX := rfl
@[simp] theorem State.paint_scrollY : (s.paint pixel).scrollY = s.scrollY := rfl
@[simp] theorem State.paint_status : (s.paint pixel).status = s.status := rfl
@[simp] theorem State.paint_cp : (s.paint pixel).cp = s.cp := rfl
@[simp] theorem State.paint_stream : (s.paint pixel).stream = s.stream := rfl
end Paint

section ForgetFb
@[simp] theorem State.forgetFb_cfg (s : State) : s.forgetFb.cfg = s.cfg := rfl
@[simp] theorem State.forgetFb_fb (s : State) : s.forgetFb.fb = [] := rfl
@[simp] theorem State.forgetFb_fbDraw (s : State) : s.forgetFb.fbDraw = s.fbDraw + 1 := rfl
@[simp] theorem State.forgetFb_scrollX (s : State) : s.forgetFb.scrollX = s.scrollX := rfl
@[simp] theorem State.forgetFb_scrollY (s : State) : s.forgetFb.scrollY = s.scrollY := rfl
@[simp] theorem State.forgetFb_status (s : State) : s.forgetFb.status = s.status := rfl
@[simp] theorem State.forgetFb_cp (s : State) : s.forgetFb.cp = s.cp := rfl
@[simp] theorem State.forgetFb_stream (s : State) : s.forgetFb.stream = s.stream := rfl
end ForgetFb

section ApplyReset
@[simp] theorem State.applyReset_cfg (s : State) : s.applyReset.cfg = s.cfg := rfl
@[simp] theorem State.applyReset_fb (s : State) : s.applyReset.fb = [] := rfl
@[simp] theorem State.applyReset_fbDraw (s : State) : s.applyReset.fbDraw = s.fbDraw + 1 := rfl
@[simp] theorem State.applyReset_scrollX (s : State) : s.applyReset.scrollX = 0 := rfl
@[simp] theorem State.applyReset_scrollY (s : State) : s.applyReset.scrollY = 0 := rfl
@[simp] theorem State.applyReset_status (s : State) : s.applyReset.status = Status.reset := rfl
@[simp] theorem State.applyReset_cp (s : State) : s.applyReset.cp = 0 := rfl
@[simp] theorem State.applyReset_stream (s : State) : s.applyReset.stream = [] := rfl
end ApplyReset

section Status
@[simp] theorem Status.accepted_busy (st : Status) : st.accepted.busy = true := rfl
@[simp] theorem Status.accepted_fault (st : Status) : st.accepted.fault = st.fault := rfl
@[simp] theorem Status.accepted_cause (st : Status) : st.accepted.cause = st.cause := rfl
@[simp] theorem Status.completed_busy (st : Status) : st.completed.busy = false := rfl
@[simp] theorem Status.completed_fault (st : Status) : st.completed.fault = st.fault := rfl
@[simp] theorem Status.completed_cause (st : Status) : st.completed.cause = st.cause := rfl
@[simp] theorem Status.faulted_busy (c : Cause) : (Status.faulted c).busy = false := rfl
@[simp] theorem Status.faulted_fault (c : Cause) : (Status.faulted c).fault = true := rfl
@[simp] theorem Status.faulted_cause (c : Cause) : (Status.faulted c).cause = c.code := rfl
@[simp] theorem Status.reset_busy : Status.reset.busy = false := rfl
@[simp] theorem Status.reset_fault : Status.reset.fault = false := rfl
@[simp] theorem Status.reset_cause : Status.reset.cause = 0 := rfl
end Status

/-- A halted engine discards what the host issues (R177). -/
theorem State.issue_halted {s : State} (h : s.status.fault = true) (d : Descriptor) : s.issue d = s := if_pos h

/-- Issuing to an unfaulted engine: the descriptor stands at `cp` and `BUSY` is set. -/
theorem State.issue_unfaulted {s : State} (h : s.status.fault = false) (d : Descriptor) :
    s.issue d =
      { s with stream := s.stream.take s.cp ++ d :: s.stream.drop s.cp, status := s.status.accepted } :=
  if_neg (by simp [h])

section IssueFields
variable (s : State) (d : Descriptor)
@[simp] theorem State.issue_cfg : (s.issue d).cfg = s.cfg := by unfold State.issue; split <;> rfl
@[simp] theorem State.issue_fb : (s.issue d).fb = s.fb := by unfold State.issue; split <;> rfl
@[simp] theorem State.issue_fbDraw : (s.issue d).fbDraw = s.fbDraw := by unfold State.issue; split <;> rfl
@[simp] theorem State.issue_scrollX : (s.issue d).scrollX = s.scrollX := by unfold State.issue; split <;> rfl
@[simp] theorem State.issue_scrollY : (s.issue d).scrollY = s.scrollY := by unfold State.issue; split <;> rfl
@[simp] theorem State.issue_fault : (s.issue d).status.fault = s.status.fault := by
  unfold State.issue; split <;> rfl
@[simp] theorem State.issue_cause : (s.issue d).status.cause = s.status.cause := by
  unfold State.issue; split <;> rfl
@[simp] theorem State.issue_cp : (s.issue d).cp = s.cp := by unfold State.issue; split <;> rfl
end IssueFields

section LoadProgram
variable (s : State) (ds : List Descriptor)
@[simp] theorem State.loadProgram_cfg : (s.loadProgram ds).cfg = s.cfg := rfl
@[simp] theorem State.loadProgram_fb : (s.loadProgram ds).fb = s.fb := rfl
@[simp] theorem State.loadProgram_fbDraw : (s.loadProgram ds).fbDraw = s.fbDraw := rfl
@[simp] theorem State.loadProgram_scrollX : (s.loadProgram ds).scrollX = s.scrollX := rfl
@[simp] theorem State.loadProgram_scrollY : (s.loadProgram ds).scrollY = s.scrollY := rfl
@[simp] theorem State.loadProgram_status : (s.loadProgram ds).status = s.status := rfl
@[simp] theorem State.loadProgram_cp : (s.loadProgram ds).cp = s.cp := rfl
@[simp] theorem State.loadProgram_stream : (s.loadProgram ds).stream = s.stream.take s.cp ++ ds := rfl
end LoadProgram

@[simp] theorem Status.accepted_accepted (st : Status) : st.accepted.accepted = st.accepted := rfl

end Sys2Proof.Machine
end

