-- ==== Sys2Proof/Laws/Engine.lean ====
section
/-! SUPPORT. Everything one step of the engine can do. -/

namespace Sys2Proof.Machine

theorem step_of_halted {s : State} (hl : s.cfg.legal = true) (hf : s.status.fault = true) : step s = .next s := by
  simp [step, engineStep, hl, hf]

theorem step_of_idle {s : State} (hl : s.cfg.legal = true) (hn : s.fetch = none) : step s = .next s := by
  unfold step engineStep
  simp only [hl, hn]
  split <;> simp_all

theorem step_of_fetch {s : State} {d : Descriptor} (hl : s.cfg.legal = true) (hf : s.status.fault = false)
    (hd : s.fetch = some d) : step s = performDescriptor d s := by
  simp [step, engineStep, hl, hf, hd]

/-- A step that answers a next state: nothing happened (halted or idle), an illegal descriptor faulted, or the decoded
command was executed. -/
theorem step_cases {s t : State} (h : step s = .next t) :
    s.cfg.legal = true ∧
      ((t = s ∧ (s.status.fault = true ∨ s.fetch = none)) ∨
        ∃ d, s.status.fault = false ∧ s.fetch = some d ∧
          ((∃ r, decode d = .error r ∧ t = s.accept.raiseFault .illegalCmd) ∨
            ∃ i, decode d = .ok i ∧ exec i s.accept = .next t)) := by
  unfold step engineStep at h
  split at h
  · cases h
  · rename_i hl
    refine ⟨by simpa using hl, ?_⟩
    split at h
    · rename_i hf
      cases h
      exact .inl ⟨rfl, .inl hf⟩
    · rename_i hf
      split at h
      · rename_i hn
        cases h
        exact .inl ⟨rfl, .inr hn⟩
      · rename_i d hd
        refine .inr ⟨d, by simpa using hf, hd, ?_⟩
        unfold performDescriptor at h
        split at h
        · rename_i i hi
          exact .inr ⟨i, hi, h⟩
        · rename_i r hr
          cases h
          exact .inl ⟨r, hr, rfl⟩

/-- A run begins with its first step. -/
theorem core_run_succ {s t : State} (h : step s = .next t) (n : Nat) :
    Host.Core.run core (n + 1) s = Host.Core.run core n t := by
  have hs : core.step s = .next t := h
  simp only [Host.Core.run, hs]

/-- An issued descriptor is the one the engine fetches. -/
theorem fetch_issue {s : State} (hf : s.status.fault = false) (hcp : s.cp ≤ s.stream.length) (d : Descriptor) :
    (s.issue d).fetch = some d := by
  rw [State.issue_unfaulted hf]
  simp [State.fetch, Nat.min_eq_left hcp]

/-- ISSUE performs the issued descriptor (R161). -/
theorem act_issue {s : State} (hl : s.cfg.legal = true) (hf : s.status.fault = false)
    (hcp : s.cp ≤ s.stream.length) (d : Descriptor) :
    act (.issue d) s = performDescriptor d (s.issue d) :=
  step_of_fetch (by simpa using hl) (by simpa using hf) (fetch_issue hf hcp d)

/-- A halted engine's ISSUE changes nothing (R177). -/
theorem act_issue_halted {s : State} (hl : s.cfg.legal = true) (hf : s.status.fault = true) (d : Descriptor) :
    act (.issue d) s = .next s := by
  show step (s.issue d) = .next s
  rw [State.issue_halted hf]
  exact step_of_halted hl hf

/-- A fetched descriptor lies in the stream. -/
theorem fetch_lt {s : State} {d : Descriptor} (h : s.fetch = some d) : s.cp < s.stream.length := by
  unfold State.fetch at h
  exact (List.getElem?_eq_some_iff.1 h).1

/-- Everything performing a descriptor can do to the bookkeeping: it answers a next state with the configuration and the
stream as before, whatever the stream is; the command completes and `cp` advances, or it faults and `cp` stays. -/
theorem performDescriptor_cases (d : Descriptor) (s : State) :
    ∃ t, performDescriptor d s = .next t ∧ t.cfg = s.cfg ∧ t.stream = s.stream ∧ t.status.busy = false ∧
      (∀ ds, performDescriptor d { s with stream := ds } = .next { t with stream := ds }) ∧
      ((t.status.fault = s.status.fault ∧ t.cp = s.cp + 1) ∨ (t.status.fault = true ∧ t.cp = s.cp)) := by
  unfold performDescriptor
  cases decode d with
  | error r => exact ⟨_, rfl, rfl, rfl, rfl, fun _ => rfl, .inr ⟨rfl, rfl⟩⟩
  | ok i =>
    obtain ⟨t, ht⟩ := exec_next i s.accept
    obtain ⟨_, _, _, rfl⟩ | ⟨_, _, _, rfl⟩ | ⟨_, _, rfl⟩ := exec_cases ht
    · exact ⟨_, ht, rfl, rfl, rfl, fun ds => (exec_stream ht ds).2, .inl ⟨rfl, rfl⟩⟩
    · exact ⟨_, ht, rfl, rfl, rfl, fun ds => (exec_stream ht ds).2, .inl ⟨rfl, rfl⟩⟩
    · exact ⟨_, ht, rfl, rfl, rfl, fun ds => (exec_stream ht ds).2, .inr ⟨rfl, rfl⟩⟩

/-- `BUSY` set beforehand, as ISSUE leaves it, makes no difference to the command. -/
theorem performDescriptor_accept (d : Descriptor) (s : State) :
    performDescriptor d s.accept = performDescriptor d s := rfl

theorem core_run_of_halted {s : State} (hl : s.cfg.legal = true) (hf : s.status.fault = true) (n : Nat) :
    Host.Core.run core n s = .next s := by
  induction n with
  | zero => rfl
  | succ n ih => rw [core_run_succ (step_of_halted hl hf), ih]

theorem issueAll_of_halted {s : State} (hl : s.cfg.legal = true) (hf : s.status.fault = true)
    (ds : List Descriptor) : s.issueAll ds = .next s := by
  induction ds with
  | nil => rfl
  | cons d ds ih =>
    simp only [State.issueAll, List.map_cons, actAll, act_issue_halted hl hf]
    exact ih

end Sys2Proof.Machine
end

