-- ==== Sys2Proof/Laws/PerInstr.lean ====
section
/-! SUPPORT. Per instruction: the descriptor the encoder gives a command spells that command's row of the opcode
table, whatever its operands (R82 to R85, R88). -/

namespace Sys2Proof.Laws.Spells

/-- The row of the opcode table of a command. -/
def format : Instr → Format
  | .fill _ => formatF
  | .fillrect _ _ _ _ _ _ => formatR
  | .blit _ _ _ _ _ _ _ _ => formatB
  | .scrollto _ _ => formatS

/-- The encoder's descriptor has the row's fixed bits: opcode and must-be-zero bits. -/
def Statement (i : Instr) : Prop := encode i &&& (format i).mask = (format i).pattern

theorem fill (color : Byte) : Statement (.fill color) := by
  apply BitVec.eq_of_getLsbD_eq
  intro k hk
  simp only [format, encode, descriptorOfWords, formatF, BitVec.getLsbD_and, BitVec.getLsbD_append]
  interval_cases k <;> simp

theorem fillrect (x y w h : Int) (color : Byte) (off : Bool) : Statement (.fillrect x y w h color off) := by
  apply BitVec.eq_of_getLsbD_eq
  intro k hk
  simp only [format, encode, descriptorOfWords, formatR, flagBit, BitVec.getLsbD_and, BitVec.getLsbD_append]
  interval_cases k <;> simp

theorem blit (x y : Int) (tile : Nat) (code : Code) (mx my : Bool) (scale : Nat) (off : Bool) :
    Statement (.blit x y tile code mx my scale off) := by
  apply BitVec.eq_of_getLsbD_eq
  intro k hk
  simp only [format, encode, descriptorOfWords, formatB, flagBit, BitVec.getLsbD_and, BitVec.getLsbD_append]
  interval_cases k <;> simp

theorem scrollto (x y : Int) : Statement (.scrollto x y) := by
  apply BitVec.eq_of_getLsbD_eq
  intro k hk
  simp only [format, encode, descriptorOfWords, formatS, BitVec.getLsbD_and, BitVec.getLsbD_append]
  interval_cases k <;> simp

end Sys2Proof.Laws.Spells
end

