-- ==== Sys2Proof/Tests/Slice0.lean ====
section
/-! SUPPORT. The model's own tests: words written out from the encodings of 30_encoding.md, values of the tables and
vectors of 95_test_vectors.md (named in each comment), ill-formed terms that WellFormed refuses, and for every
statement with hypotheses a witness that meets them. -/

namespace Sys2Proof.Tests

open Sys2Proof.Machine

set_option maxRecDepth 8000

/-! ### Helpers -/

/-- The next state, if there is one. -/
def nextOf (o : Host.Outcome State Fault Refusal) : Option State :=
  match o with
  | .next t => some t
  | _ => none

/-- What the outcome says of a next state. -/
def nextSays (o : Host.Outcome State Fault Refusal) (q : State → Bool) : Bool :=
  match o with
  | .next t => q t
  | _ => false

/-- A list of lanes, row by row, as atlas cells. -/
def lanes (ls : List Lane) : List (Nat × Lane) := (List.range ls.length).zip ls

/-- The atlas GLYPH of 95_test_vectors.md section 3 (8 by 8, a letter F). -/
def glyph : List (Nat × Lane) :=
  lanes ([0, 1, 1, 1, 1, 1, 2, 0] ++ [0, 1, 3, 3, 3, 3, 2, 0] ++ [0, 1, 3, 0, 0, 0, 0, 0] ++
    [0, 1, 1, 1, 2, 0, 0, 0] ++ [0, 1, 3, 3, 2, 0, 0, 0] ++ [0, 1, 3, 0, 0, 0, 0, 0] ++
    [0, 1, 3, 0, 0, 0, 0, 0] ++ [0, 2, 2, 0, 0, 0, 0, 0])

/-- Tile 5 of the atlas A256 of 95_test_vectors.md section 2.4, by its formula. -/
def tile5 : List (Nat × Lane) :=
  (List.range 64).map fun n =>
    let ax := 40 + n % 8
    let ay := n / 8
    (ax + ay * 256, BitVec.ofNat 2 (ax * (ay + 1) + ax / 8 + ay / 8))

/-- The atlas of 95_test_vectors.md section 2.8 (8 by 16), by its formula. -/
def narrow : List (Nat × Lane) := (List.range 128).map fun i => (i, BitVec.ofNat 2 (i * 7 + i / 8))

/-- A state right after reset with a canvas and an atlas, every cell 9. -/
def canvas (wf hf w h : Nat) (atlas : List (Nat × Lane)) : State :=
  { State.ofParams { w := w, h := h, wf := wf, hf := hf, atlas := atlas, persist := true } with
    fb := (List.range (wf * hf)).map fun a => (a, 9#8) }

/-- The vectors' usual start: 8 by 8, atlas A256 (tile 5 known). -/
def start : State := canvas 8 8 256 256 tile5

/-- The same with one descriptor issued. -/
def issued (d : Descriptor) : State := start.issue d

/-- The cells `from` to `from + n - 1`. -/
def cellsFrom (s : State) (first n : Nat) : List Byte := (List.range n).map fun k => s.fbCell (first + k)

/-! ### Well-formedness -/

theorem test_wellFormed_smoke :
    (Instr.fillrect 32768 0 1 1 5 false).wellFormed = false ∧
    (Instr.fillrect 0 (-32769) 1 1 5 false).wellFormed = false ∧
    (Instr.fillrect 0 0 40000 1 5 false).wellFormed = false ∧
    (Instr.fillrect 0 0 1 (-40000) 5 false).wellFormed = false ∧
    (Instr.blit 32768 0 0 0 false false 1 false).wellFormed = false ∧
    (Instr.blit 0 32768 0 0 false false 1 false).wellFormed = false ∧
    (Instr.blit 0 0 65536 0 false false 1 false).wellFormed = false ∧
    (Instr.blit 0 0 5 0 false false 256 false).wellFormed = false ∧
    (Instr.scrollto 0 (-32769)).wellFormed = false ∧
    (Instr.scrollto 32768 0).wellFormed = false ∧
    (Instr.blit (-32768) 32767 65535 0 true true 0 true).wellFormed = true := by decide

/-! ### Encoding: words written out from R82 to R85 -/

theorem test_decode_fill :
    decode (descriptorOfWords 0x010000D7 0 0 0) = .ok (.fill 215) ∧
    encode (.fill 215) = descriptorOfWords 0x010000D7 0 0 0 := by decide

theorem test_decode_fillrect :
    decode (descriptorOfWords 0x020400FF 0x7FFF7FFF 0xFFFF8000 0) =
      .ok (.fillrect 32767 32767 (-32768) (-1) 255 true) ∧
    encode (.fillrect (-2) (-1) 4 3 5 false) = descriptorOfWords 0x02000005 0xFFFFFFFE 0x00030004 0 := by decide

theorem test_decode_blit :
    decode (descriptorOfWords 0x03010300 0xFFF6FFFB 0x00000005 0xD7B42400) =
      .ok (.blit (-5) (-10) 5 0xD7B42400 true false 3 false) ∧
    encode (.blit 1 (-1) 0 0xD7B42400 false true 2 true) =
      descriptorOfWords 0x03060200 0xFFFF0001 0 0xD7B42400 := by decide

theorem test_decode_scrollto :
    decode (descriptorOfWords 0x04000000 0x7FFF8000 0 0) = .ok (.scrollto (-32768) 32767) ∧
    encode (.scrollto (-3) 2) = descriptorOfWords 0x04000000 0x0002FFFD 0 0 := by decide

/-- Rows of the illegal table of 95_test_vectors.md section 2.3. -/
theorem test_decode_illegal :
    decode (descriptorOfWords 0x05000000 0 0 0) = .error (.unassignedOpcode 5) ∧
    decode (descriptorOfWords 0x01040007 0 0 0) = .error (.reservedBits 1) ∧
    decode (descriptorOfWords 0x0201002B 0x000A000C 0x0006000A 0) = .error (.reservedBits 2) ∧
    decode (descriptorOfWords 0x03080100 0 0 0xD7B42400) = .error (.reservedBits 3) ∧
    decode (descriptorOfWords 0x04000000 0x00020004 1 0) = .error (.reservedBits 4) := by decide

/-- R55: little-endian words, `W0` first; a partial descriptor is no command (R161). -/
theorem test_decode_bytes :
    decodeBytes [0x2B, 0, 4, 2, 12, 0, 10, 0, 10, 0, 6, 0, 0, 0, 0, 0, 7] =
      .ok (.fillrect 12 10 10 6 43 true, [7]) ∧
    decodeBytes [0x2B, 0, 4, 2] = .error .partialDescriptor ∧
    decodeTableWord 128 0x03000000 = some (.blit 0 0 0 0 false false 0 false) := by decide

/-! ### The commands -/

/-- 95_test_vectors.md section 2.5: `fill 5`, `fill 255` on 6 by 4. -/
theorem test_fill :
    nextSays (exec (.fill 5) (canvas 6 4 0 0 [])) (fun t => cellsFrom t 0 24 == List.replicate 24 5 && t.cp == 1) ∧
    nextSays (exec (.fill 255) (canvas 6 4 0 0 [])) (fun t => t.fb == (canvas 6 4 0 0 []).fb && t.cp == 1) := by
  decide

/-- 95_test_vectors.md section 2.5: clipped left and top; then scrolled. -/
theorem test_fillrect :
    nextSays (exec (.fillrect (-2) (-1) 4 3 5 false) (canvas 6 4 0 0 []))
      (fun t => cellsFrom t 0 14 == [5, 5, 9, 9, 9, 9, 5, 5, 9, 9, 9, 9, 9, 9]) ∧
    nextSays (exec (.fillrect 3 2 3 2 5 true) { canvas 6 4 0 0 [] with scrollX := 2, scrollY := 1 })
      (fun t => cellsFrom t 6 10 == [9, 5, 5, 5, 9, 9, 9, 5, 5, 5]) := by decide

/-- Vectors B7 and B8: scale 3, clipped, plain and mirrored; rows 2 and 5. -/
theorem test_blit_scaled_mirrored :
    nextSays (exec (.blit (-5) (-10) 5 0xD7B42400 false false 3 false) start)
      (fun t => cellsFrom t 16 8 == [180, 215, 215, 215, 0, 0, 0, 36] &&
        cellsFrom t 40 8 == [215, 36, 36, 36, 215, 215, 215, 36]) ∧
    nextSays (exec (.blit (-5) (-10) 5 0xD7B42400 true false 3 false) start)
      (fun t => cellsFrom t 16 8 == [215, 180, 180, 180, 36, 36, 36, 0]) := by decide

/-- Program P1, command 1 (transparency), vector B15 (scale 255) and vector B27 (an atlas 8 wide). -/
theorem test_blit_transparent_extreme_narrow :
    nextSays (exec (.blit 1 1 0 0xD7B424FF false false 1 false) (canvas 20 10 8 8 glyph))
      (fun t => cellsFrom t 20 10 == [9, 9, 36, 36, 36, 36, 36, 180, 9, 9]) ∧
    nextSays (exec (.blit (-2039) (-2039) 5 0xD7B42400 false false 255 false) start)
      (fun t => cellsFrom t 0 10 == [36, 9, 9, 9, 9, 9, 9, 9, 9, 9]) ∧
    nextSays (exec (.blit 0 0 1 0x04030201 false false 1 false) (canvas 8 8 8 16 narrow))
      (fun t => cellsFrom t 0 8 == [2, 1, 4, 3, 2, 1, 4, 3] && cellsFrom t 56 8 == [1, 4, 3, 2, 1, 4, 3, 2]) := by
  decide

/-- 95_test_vectors.md section 2.6, and vector B20 (negative scroll). -/
theorem test_scrollto :
    nextSays (exec (.scrollto (-3) 2) start)
      (fun t => t.scrollX == 0xFFFD#16 && t.scrollY == 2#16 && t.fb == start.fb && t.cp == 1) ∧
    nextSays (exec (.blit 0 0 5 0xD7B42400 false false 1 true) { start with scrollX := 0xFFFD, scrollY := 2 })
      (fun t => cellsFrom t 0 8 == [9, 9, 9, 36, 0, 215, 180, 36] && cellsFrom t 48 8 == List.replicate 8 9) := by
  decide

/-! ### Faults, the step, the host -/

/-- Vectors B22 to B25: `STATUS` is 0x22 or 0x32, nothing written, `cp` not advanced. -/
theorem test_blit_faults :
    nextSays (exec (.blit 0 0 5 0xD7B42400 false false 0 false) start)
      (fun t => t.readStatus == 0x22#32 && t.fb == start.fb && t.cp == 0) ∧
    nextSays (exec (.blit 0 0 1024 0xD7B42400 false false 0 false) start) (fun t => t.readStatus == 0x22#32) ∧
    nextSays (exec (.blit (-3000) (-3000) 1024 0xFFFFFFFF false false 1 false) start)
      (fun t => t.readStatus == 0x32#32 && t.fb == start.fb && t.cp == 0) := by decide

/-- ILLEGAL_CMD gives `STATUS = 0x12`; a halted engine executes nothing (95_test_vectors.md section 2.7). -/
theorem test_step_illegal_and_halted :
    nextSays (step (issued (descriptorOfWords 0x04040000 0x00020004 0 0)))
      (fun t => t.readStatus == 0x12#32 && t.cp == 0 &&
        nextSays (step (t.issue (descriptorOfWords 0x01000009 0 0 0))) (fun u => u == t)) := by decide

/-- ISSUE is synchronous (R161, R63): `BUSY = 1` from the hand-over, 0 when the move is over, and READOUT then shows the
command's writes. -/
theorem test_issue_is_synchronous :
    (start.issue (encode (.fill 5))).readStatus.getLsbD 0 = true ∧
    nextSays (act (.issue (encode (.fill 5))) start)
      (fun t => t.readStatus == 0#32 && t.readout == List.replicate 64 5 && t.cp == 1) := by decide

/-- The first instruction after reset. -/
theorem test_first_step :
    nextSays (step (State.reset.withFetchWord 128 0x01000007))
      (fun t => t.readout == List.replicate 64 7 && t.cp == 1 && t.readStatus == 0#32) ∧
    nextSays (step State.reset) (fun t => t == State.reset) := by decide

/-! ### Toolchain functions -/

/-- 95_test_vectors.md section 2.1. -/
theorem test_codec :
    scc 123 = some 51 ∧ scc 555 = some 215 ∧ scc (-555) = some 255 ∧ scc 600 = none ∧ scc 556 = none ∧
    scc 1000 = none ∧ lcc (-1) 100 500 555 = some 0xD7B424FF ∧ lcc 555 (-1) 0 (-1) = some 0xFF00FFD7 ∧
    lcc 0 100 600 555 = none ∧ cubeCoord 51 = some (1, 2, 3) ∧ stepIntensity 4 = 204 := by decide

/-- 95_test_vectors.md section 2.2. -/
theorem test_atlas_functions :
    laneOfChannel 63 = 0 ∧ laneOfChannel 64 = 1 ∧ laneOfChannel 191 = 2 ∧ laneOfChannel 255 = 3 ∧
    tileOffset Params.initial 37 = 2088 ∧ tileOffset Params.initial 1023 = 63736 ∧
    inRange Params.initial 1023 ∧ ¬ inRange Params.initial 1024 ∧
    laneColor 0xD7B42400 3 = 215 ∧ laneColor 0x04030201 1 = 2 := by decide

/-- 95_test_vectors.md section 2.3: accepted and refused lines. -/
theorem test_assembler :
    assembleLine " BLIT 0, 0, 5, lcc(0, 100, 500, 555), 0, 0, 1, 0 ; S9".toList =
      .ok (some (descriptorOfWords 0x03000100 0 5 0xD7B42400)) ∧
    assembleLine "fill scc(-1)".toList = .ok (some (descriptorOfWords 0x010000FF 0 0 0)) ∧
    assembleLine "fill scc(600)".toList = .error .codecRefused ∧
    assembleLine "fill 256".toList = .error .operandRange ∧
    assembleLine "fillrect 0, 0, 1, 1, 5, 2".toList = .error .operandRange ∧
    assembleLine "scrollto 0, -32769".toList = .error .operandRange ∧
    assembleLine "nop".toList = .error .unknownMnemonic ∧
    assembleLine "fill 1 2".toList = .error .badSyntax ∧
    assembleLine "; nothing".toList = .ok none := by decide

/-! ### Witnesses: for every statement with hypotheses, a state and operands that meet them -/

/-- EncodedCommandsDecodeBack, ScrolltoSetsTheScrollRegisters, AssembledCommandsDecode. -/
theorem witness_wellFormed :
    (Instr.scrollto (-32768) 32767).wellFormed = true ∧ (Instr.scrollto 32768 0).wellFormed = false ∧
    (Instr.blit 32767 (-32768) 65535 0 false true 255 true).wellFormed = true ∧
    assembleLine "fill 5".toList = .ok (some (descriptorOfWords 0x01000005 0 0 0)) := by decide

/-- DecodedDescriptorsEncodeBack. -/
theorem witness_decodes : decode (descriptorOfWords 0x03000100 0 5 0xD7B42400) =
    .ok (.blit 0 0 5 0xD7B42400 false false 1 false) := by decide

/-- IllegalDescriptorsRaiseIllegalCmd: each clause, at the ends of the opcode ranges. -/
theorem witness_illegal :
    (issued 0).cfg.legal = true ∧ (issued 0).status.fault = false ∧
    (issued 0).fetch = some 0 ∧ opcodeField 0 = 0 ∧
    5 ≤ (opcodeField (descriptorOfWords 0x05000000 0 0 0)).toNat ∧
    5 ≤ (opcodeField (descriptorOfWords 0xFF000000 0 0 0)).toNat ∧
    (opcodeField 0x01000100#128 = 1 ∧ 0x01000100#128 &&& formatF.mask ≠ formatF.pattern) ∧
    (opcodeField 0x02010000#128 = 2 ∧ 0x02010000#128 &&& formatR.mask ≠ formatR.pattern) ∧
    (opcodeField 0x03000001#128 = 3 ∧ 0x03000001#128 &&& formatB.mask ≠ formatB.pattern) ∧
    (opcodeField 0x04000001#128 = 4 ∧ 0x04000001#128 &&& formatS.mask ≠ formatS.pattern) := by decide

/-- StepRunsTheDecodedCommand (both clauses), IssuedCommandRunsNext, StepsOfAProgramAreItsIssues. -/
theorem witness_step :
    (issued (encode (.fill 5))).cfg.legal = true ∧ (issued (encode (.fill 5))).status.fault = false ∧
    (issued (encode (.fill 5))).stream[(issued (encode (.fill 5))).cp]? = some (encode (.fill 5)) ∧
    decode (encode (.fill 5)) = .ok (.fill 5) ∧
    start.stream[start.cp]? = none ∧ start.cp = start.stream.length ∧ (Instr.fill 5).wellFormed = true ∧
    (start.loadProgram [encode (.fill 5)]).cp ≤ (start.loadProgram [encode (.fill 5)]).stream.length := by decide

/-- The statements that ask for a framebuffer list in canonical form, and for canvas cells and cells beyond them. -/
theorem witness_canonical : start.fb.wf = true ∧ State.reset.fb.wf = true ∧ 63 < start.cfg.wf * start.cfg.hf ∧
    start.cfg.wf * start.cfg.hf ≤ 64 := by decide

/-- FillrectOfNothingDrawsNothing: every clause, at its boundary (`off = 0`, 8 by 8 canvas). -/
theorem witness_fillrect_nothing :
    (0 : Int) ≤ 0 ∧ (-8 : Int) + 8 ≤ 0 ∧ (start.cfg.wf : Int) ≤ 8 ∧ (start.cfg.hf : Int) ≤ 8 ∧
    nextSays (exec (.fillrect (-8) 0 8 8 5 false) start) (fun t => t.fb == start.fb) ∧
    nextSays (exec (.fillrect 8 0 1 8 5 false) start) (fun t => t.fb == start.fb) ∧
    nextSays (exec (.fillrect 7 7 1 1 5 false) start) (fun t => t.fb != start.fb) := by decide

/-- FillrectOverTheCanvasIsFill. -/
theorem witness_fillrect_over :
    (0 : Int) ≤ 0 ∧ (start.cfg.wf : Int) ≤ 0 + 8 ∧ (start.cfg.hf : Int) ≤ 0 + 8 ∧
    nextOf (exec (.fillrect 0 0 8 8 5 false) start) = nextOf (exec (.fill 5) start) := by decide

/-- BlitDrawsTheTile, BlitRunsItsPseudocode, BlitScalesEachSourcePixelToABlock, TransparentBlitWritesNothing and the
mirror statements: a scale and a tile at the ends of their ranges, pixels inside and outside the square, a mirrored
pair. -/
theorem witness_blit :
    (1 : Nat) ≠ 0 ∧ (255 : Nat) ≠ 0 ∧ inRange start.cfg 0 ∧ inRange start.cfg 1023 ∧ ¬ inRange start.cfg 1024 ∧
    tileOffset start.cfg 1023 + 7 + 7 * start.cfg.w < start.cfg.w * start.cfg.h ∧
    (0 ≤ (7 : Int) - 0 ∧ (7 : Int) - 0 < 8 * (1 : Nat)) ∧ ¬ (0 ≤ (0 : Int) - 1) ∧
    (0 : Int) + 7 = 2 * 0 + 8 * 1 - 1 ∧ 7 < start.cfg.wf ∧ 7 < start.cfg.hf ∧
    (5 : Int) = 0 + ((2 : Fin 8).val : Int) * 2 + 1 := by decide

/-- BlitOutOfTheAtlasRaisesAtlasRange: the first tile out of range, and an empty atlas. -/
theorem witness_blit_out :
    start.cfg.w * start.cfg.h ≤ 1024 % 32 * 8 + 1024 / 32 * 8 * start.cfg.w + 7 + 7 * start.cfg.w ∧
    (canvas 8 8 0 0 []).cfg.w * (canvas 8 8 0 0 []).cfg.h = 0 := by decide

/-- FaultPriorityIsIllegalThenScaleThenRange: each clause. -/
theorem witness_priority :
    decode 0 = .error (.unassignedOpcode 0) ∧
    decode (descriptorOfWords 0x03000000 0 0x400 0xD7B42400) = .ok (.blit 0 0 1024 0xD7B42400 false false 0 false) ∧
    decode (descriptorOfWords 0x03000100 0 0x400 0xD7B42400) = .ok (.blit 0 0 1024 0xD7B42400 false false 1 false) ∧
    (issued 0).stream[(issued 0).cp]? = some 0 ∧ ¬ inRange (issued 0).cfg 1024 := by decide

/-- BlitVisitsNoCellTwice: both destinations on the canvas, one cell. -/
theorem witness_visits :
    (1 : Nat) < 2 ∧ onCanvas start.cfg (-1 + ((1 : Fin 8).val : Int) * (2 : Nat) + (1 : Nat)) 3 = true ∧
    pixelCell start.cfg 2 3 = 26 := by decide

/-- FaultEntryChangesOnlyStatus, HaltedEngineExecutesNothing, HaltedMovesLeaveTheWholeState, OnlyResetClearsAFault. -/
theorem witness_fault :
    (issued 0).status.fault = false ∧
    nextSays (step (issued 0)) (fun t =>
      t.status.fault && t.cfg.legal && !t.status.busy && t.cfg.persist &&
      nextSays (actAll [.engine, .issue 5, .readout, .readStatus] t) (fun u => u == t) &&
      nextSays (act .reset t) (fun u => !u.status.fault)) := by decide

/-- OnlyDrawsResetAndFrameEndChangeTheFramebuffer and NoCommandWrites255: a FILL changes cell 0, as a step of the engine
and as an ISSUE. -/
theorem witness_fb_changes :
    start.cp ≤ start.stream.length ∧
    (issued (encode (.fill 5))).cp ≤ (issued (encode (.fill 5))).stream.length ∧
    nextSays (act (.issue (encode (.fill 5))) start) (fun t => t.fbCell 0 != start.fbCell 0) = true ∧
    nextSays (act .engine (issued (encode (.fill 5)))) (fun t => t.fbCell 0 != (issued (encode (.fill 5))).fbCell 0)
      = true := by decide

/-- OnlyScrolltoAndResetChangeTheScroll: a SCROLLTO, and a RESET after it, change the registers. -/
theorem witness_scroll_changes :
    nextSays (act .engine (issued (encode (.scrollto 1 2)))) (fun t => t.scrollX != start.scrollX &&
      nextSays (act .reset t) (fun u => u.scrollX != t.scrollX && u.cfg == t.cfg)) = true := by decide

/-- EveryStepKeepsTheInvariant, EveryMoveKeepsTheInvariant, EveryStreamRunsToItsEnd: a state that meets the invariant,
with a command to run. -/
theorem witness_invariant : (start.loadProgram [encode (.fill 5)]).Inv ∧
    nextSays (step (start.loadProgram [encode (.fill 5)])) (fun t => t.final) = true where
  left :=
    { legal := by decide
      idle := by decide
      coherent := ⟨fun _ => by decide, fun h => absurd h (by decide)⟩
      cpBound := by decide
      faultAt := fun h => absurd h (by decide)
      canonical := by decide
      within := by decide
      written := by decide }
  right := by decide

/-- EveryReachableStateMeetsTheInvariant, BusyZeroMeansEveryIssuedCommandIsDone, ResetStateMeetsTheInvariant: an
instance after one ISSUE. -/
theorem witness_reachable :
    instantiate Params.initial = .next State.reset ∧
    ∃ t, act (.issue (encode (.scrollto 1 2))) State.reset = .next t ∧ Reachable t ∧ t.cp = 1 :=
  ⟨rfl, _, rfl, .move (.issue (encode (.scrollto 1 2))) (.start Params.initial (by decide)) rfl, rfl⟩

/-- PaletteCleanCommandsKeepThePalette. -/
theorem witness_palette :
    colorsInPalette (.blit 0 0 5 0xD7B424FF false false 1 false) = true ∧ colorsInPalette (.fill 230) = false ∧
    (∀ cell, cell < start.cfg.wf * start.cfg.hf → inPalette (start.fbCell cell) = true) ∧
    0 < start.cfg.wf * start.cfg.hf := by decide

/-- AtlasOf256ColumnsIsAGridOfTiles: tiles at the end of the first row, the start of the second, the last in range. -/
theorem witness_grid :
    Params.initial.w = 256 ∧ tileOffset Params.initial 31 = 248 ∧ tileOffset Params.initial 32 = 2048 ∧
    1023 / 32 * 8 + 8 ≤ Params.initial.h ∧ ¬ 1024 / 32 * 8 + 8 ≤ Params.initial.h := by decide

/-- LoaderStoresTheLaneOfEveryChannelValue: an image with a channel value per pixel, and one without. -/
theorem witness_loader :
    (⟨2, 2, [0, 64, 128, 255]⟩ : Image).channel.length = 2 * 2 ∧
    (⟨2, 2, [0, 64]⟩ : Image).channel.length ≠ 2 * 2 ∧ ([0, 64, 128, 255] : List Byte)[1 + 1 * 2]? = some 255 := by
  decide

/-- LiteralOperandsBuildTheirCommand: the ends of each refused range. -/
theorem witness_operands :
    ((-1 : Int) < 0 ∧ natOperand (.literal (-1)) = .error .operandRange ∧ natOperand (.literal 0) = .ok 0 ∧
      (255 : Int) < 256 ∧ (0xFFFFFFFF : Int) < 0x100000000 ∧ (2 : Int) ≠ 0 ∧ (2 : Int) ≠ 1) ∧
    colorOperand (.literal 256) = .error .operandRange ∧ colorOperand (.literal 255) = .ok 255 ∧
    codeOperand (.literal 0xFFFFFFFF) = .ok 0xFFFFFFFF ∧ codeOperand (.literal 0x100000000) = .error .operandRange ∧
    flagOperand (.literal 2) = .error .operandRange := by decide

/-- SccReadsBaseSixDigits, SccIsABijectionOntoThePalette, LccPacksFourLanes: the ends of each clause's range. -/
theorem witness_codec :
    scc (-1) = some 255 ∧ scc 0 = some 0 ∧ scc ((5 * 100 + 5 * 10 + 5 : Nat) : Int) = some (BitVec.ofNat 8 215) ∧
    lcc 0 100 500 555 = some 0xD7B42400 ∧ lcc 0 100 600 555 = none := by decide

/-- ReadoutReturnsTheFramebuffer: each clause. -/
theorem witness_readout :
    start.status.busy = false ∧ start.cfg.persist = true ∧
    ({ start with cfg := { start.cfg with persist := false } } : State).cfg.persist = false ∧
    start.accept.status.busy = true ∧ start.readout[63]? = some 9 := by decide

/-- IllegalConfigurationsAreRefused: each clause alone, and `W = H = 0` is allowed. -/
theorem witness_configurations :
    (⟨12, 8, 8, 8, [], true⟩ : Params).legal = false ∧ (⟨8, 12, 8, 8, [], true⟩ : Params).legal = false ∧
    (⟨8, 8, 0, 8, [], true⟩ : Params).legal = false ∧ (⟨8, 8, 8, 0, [], true⟩ : Params).legal = false ∧
    (⟨0, 0, 1, 1, [], true⟩ : Params).legal = true := by decide

/-- InstancesShareNothing: a move of instance 1 of two. -/
theorem witness_instances : ∃ after, actOn 1 .reset [start, start] = .next after ∧ (0 : Nat) ≠ 1 :=
  ⟨_, rfl, by decide⟩

/-- NoMoveChangesTheConfiguration: a list of moves that is answered. -/
theorem witness_moves :
    nextSays (actAll [.issue (encode (.fill 5)), .engine, .readout, .reset] start) (fun t => t.cfg == start.cfg) =
      true := by decide

end Sys2Proof.Tests
end

section
/-! PROOFS. The family of 10_state.md: which moves change the framebuffer, the scroll registers and the configuration
(R23 to R25, R32, R43), and what a command may store in a framebuffer cell (R22, R23, R58). -/

namespace Sys2Proof.Machine

/-! ### What a move leaves unchanged -/

@[simp] theorem State.afterReadout_cfg (s : State) : s.afterReadout.cfg = s.cfg := by
  unfold State.afterReadout
  split <;> rfl

@[simp] theorem State.afterReadout_scrollX (s : State) : s.afterReadout.scrollX = s.scrollX := by
  unfold State.afterReadout
  split <;> rfl

@[simp] theorem State.afterReadout_scrollY (s : State) : s.afterReadout.scrollY = s.scrollY := by
  unfold State.afterReadout
  split <;> rfl

/-- Contents that persist across frames survive a READOUT (R194). -/
theorem State.afterReadout_of_persist {s : State} (h : s.cfg.persist = true) : s.afterReadout = s := if_pos h

@[simp] theorem State.issue_fbCell (s : State) (d : Descriptor) (cell : Nat) :
    (s.issue d).fbCell cell = s.fbCell cell := by
  simp [State.fbCell]

/-- A READOUT that is answered leaves the state of R194. -/
theorem act_readout_eq {s t : State} (h : act .readout s = .next t) : t = s.afterReadout := by
  unfold act at h
  dsimp only at h
  split at h
  · cases h
  · cases h
    rfl

theorem step_cfg {s t : State} (h : step s = .next t) : t.cfg = s.cfg := by
  obtain ⟨hl, ⟨rfl, _⟩ | ⟨d, hf, hd, _⟩⟩ := step_cases h
  · rfl
  · rw [step_of_fetch hl hf hd] at h
    obtain ⟨u, hu, hcfg, _⟩ := performDescriptor_cases d s
    cases h.symm.trans hu
    exact hcfg

theorem act_cfg {a : Action} {s t : State} (h : act a s = .next t) : t.cfg = s.cfg := by
  cases a with
  | engine => exact step_cfg h
  | issue d => exact (step_cfg h).trans (State.issue_cfg s d)
  | readout => rw [act_readout_eq h, State.afterReadout_cfg]
  | readStatus =>
    cases h
    rfl
  | reset =>
    cases h
    rfl

/-- The descriptor that a step after an ISSUE fetches is the issued one. -/
theorem eq_of_fetch_issue {s : State} {d d' : Descriptor} (hcp : s.cp ≤ s.stream.length)
    (hf : (s.issue d).status.fault = false) (hd : (s.issue d).fetch = some d') : d' = d := by
  rw [fetch_issue (by simpa using hf) hcp] at hd
  exact (Option.some.inj hd).symm

/-- A step that changes a framebuffer cell executes a command other than SCROLLTO. -/
theorem step_changes_fbCell {s t : State} {cell : Nat} (h : step s = .next t)
    (hne : t.fbCell cell ≠ s.fbCell cell) :
    s.status.fault = false ∧ ∃ d i, s.fetch = some d ∧ decode d = .ok i ∧ ∀ x y, i ≠ .scrollto x y := by
  obtain ⟨_, ⟨rfl, _⟩ | ⟨d, hf, hd, ⟨r, _, rfl⟩ | ⟨i, hi, hexec⟩⟩⟩ := step_cases h
  · exact absurd rfl hne
  · exact absurd rfl hne
  · obtain ⟨_, _, hi', _⟩ | ⟨x, y, _, rfl⟩ | ⟨_, hi', _⟩ := exec_cases hexec
    · exact ⟨hf, d, i, hd, hi, hi'⟩
    · exact absurd rfl hne
    · exact ⟨hf, d, i, hd, hi, hi'⟩

/-- A step that changes a scroll register executes a SCROLLTO. -/
theorem step_changes_scroll {s t : State} (h : step s = .next t)
    (hne : t.scrollX ≠ s.scrollX ∨ t.scrollY ≠ s.scrollY) :
    s.status.fault = false ∧ ∃ d x y, s.fetch = some d ∧ decode d = .ok (.scrollto x y) := by
  obtain ⟨_, ⟨rfl, _⟩ | ⟨d, hf, hd, ⟨r, _, rfl⟩ | ⟨i, hi, hexec⟩⟩⟩ := step_cases h
  · simp at hne
  · simp at hne
  · obtain ⟨_, _, _, rfl⟩ | ⟨x, y, rfl, _⟩ | ⟨_, _, rfl⟩ := exec_cases hexec
    · simp at hne
    · exact ⟨hf, d, x, y, hd, hi⟩
    · simp at hne

/-! ### What a command may store in a cell -/

/-- The state with other framebuffer contents. -/
def State.withFb (s : State) (fb : Memory) (draw : Nat) : State := { s with fb := fb, fbDraw := draw }

/-- What R22 says of a value that the command `i` stores: it is not 255, and it is in the palette if the colours of `i`
are. -/
def MayStore (i : Instr) (v : Byte) : Prop := v ≠ transparent ∧ (colorsInPalette i = true → inPalette v = true)

/-- Painting with no colour anywhere writes nothing. -/
theorem paint_nothing (p : Params) (m : Memory) : paint p (fun _ _ => none) m = m := by
  simp [paint, paintedCells, Memory.overlay]

theorem rectPixel_eq_some {x y w h : Int} {color : Byte} {px py : Int} {v : Byte}
    (hv : rectPixel x y w h color px py = some v) : color = v := by
  unfold rectPixel at hv
  split at hv
  · exact (opaqueColor_eq_some.1 hv).1
  · cases hv

/-- A colour that BLIT stores is a lane of its colour code. -/
theorem blitPixel_eq_some {p : Params} {tile : Nat} {inside : inRange p tile} {code : Code}
    {mx my : Bool} {scale : Nat} {x y px py : Int} {v : Byte}
    (h : blitPixel p tile inside code mx my scale x y px py = some v) : ∃ l, laneColor code l = v := by
  unfold blitPixel at h
  split at h
  · exact ⟨_, (opaqueColor_eq_some.1 h).1⟩
  · cases h

/-- BLIT's duty of R22 covers every lane of its colour code. -/
theorem laneColor_inPalette {x y : Int} {tile : Nat} {code : Code} {mx my : Bool} {scale : Nat} {off : Bool}
    (h : colorsInPalette (.blit x y tile code mx my scale off) = true) (l : Lane) :
    inPalette (laneColor code l) = true := by
  simp only [colorsInPalette, Bool.and_eq_true] at h
  obtain ⟨⟨⟨h0, h1⟩, h2⟩, h3⟩ := h
  have hl : l = 0 ∨ l = 1 ∨ l = 2 ∨ l = 3 := by
    revert l
    decide
  rcases hl with rfl | rfl | rfl | rfl <;> assumption

/-- The command `i`, run in `s` with any framebuffer contents, paints by `pixel`, whose colours are those R22
allows, and leaves everything else as in `rest`. -/
def Paints (i : Instr) (s : State) (pixel : Int → Int → Option Byte) (rest : State) : Prop :=
  (∀ px py v, pixel px py = some v → MayStore i v) ∧
  ∀ fb draw, exec i (s.withFb fb draw) = .next (rest.withFb (paint s.cfg pixel fb) draw)

/-- A command that keeps the framebuffer paints nothing. -/
theorem paints_nothing {i : Instr} {s rest : State}
    (h : ∀ fb draw, exec i (s.withFb fb draw) = .next (rest.withFb fb draw)) :
    Paints i s (fun _ _ => none) rest :=
  ⟨by simp, by simpa [paint_nothing] using h⟩

/-- Every command paints (SCROLLTO and a fault paint nothing): neither the colours it stores nor the rest of the next
state depend on the framebuffer. -/
theorem exec_paints (i : Instr) (s : State) : ∃ pixel rest, Paints i s pixel rest := by
  cases i with
  | fill color =>
    refine ⟨fun _ _ => opaqueColor color, s.complete, fun _ _ v hv => ?_, fun _ _ => rfl⟩
    obtain ⟨rfl, hne⟩ := opaqueColor_eq_some.1 hv
    exact ⟨hne, id⟩
  | fillrect x y w h color off =>
    refine ⟨rectPixel (originX off x s) (originY off y s) w h color, s.complete, fun _ _ v hv => ?_, fun _ _ => rfl⟩
    exact ⟨rectPixel_ne_transparent hv, fun hc => rectPixel_eq_some hv ▸ hc⟩
  | blit x y tile code mx my scale off =>
    by_cases hs : scale = 0
    · subst hs
      exact ⟨_, s.raiseFault .badScale, paints_nothing fun _ _ => rfl⟩
    by_cases inside : inRange s.cfg tile
    · refine ⟨blitPixel s.cfg tile inside code mx my scale (originX off x s) (originY off y s), s.complete,
        fun _ _ v hv => ⟨blitPixel_ne_transparent hv, fun hc => ?_⟩,
        fun fb draw => execBlit_inRange (s := s.withFb fb draw) hs inside⟩
      obtain ⟨l, rfl⟩ := blitPixel_eq_some hv
      exact laneColor_inPalette hc l
    · exact ⟨_, s.raiseFault .atlasRange, paints_nothing fun fb draw =>
        execBlit_atlasRange (s := s.withFb fb draw) hs inside⟩
  | scrollto x y =>
    exact ⟨_, ({ s with scrollX := BitVec.ofInt 16 x, scrollY := BitVec.ofInt 16 y } : State).complete,
      paints_nothing fun _ _ => rfl⟩

/-- The colour that painting by `pixel` stores in a framebuffer cell, if it stores one. -/
def cellColor (p : Params) (pixel : Int → Int → Option Byte) (cell : Nat) : Option Byte :=
  if cell < p.cells then pixel ((cell % p.wf : Nat) : Int) ((cell / p.wf : Nat) : Int) else none

theorem cellColor_eq_some {p : Params} {pixel : Int → Int → Option Byte} {cell : Nat} {v : Byte}
    (h : cellColor p pixel cell = some v) : ∃ px py, pixel px py = some v :=
  ⟨_, _, (Option.ite_none_right_eq_some.1 h).2⟩

theorem fbCell_withFb_paint (s rest : State) (p : Params) (pixel : Int → Int → Option Byte) (fb : Memory)
    (draw cell : Nat) :
    (rest.withFb (paint p pixel fb) draw).fbCell cell =
      (cellColor p pixel cell).getD ((s.withFb fb draw).fbCell cell) := by
  simp only [State.fbCell, State.withFb, read_paint, cellColor, Option.getD_or]

/-- R58 cell by cell: a command's effect on a cell is "unchanged" or a value that R22 allows, and neither the choice,
the value nor the rest of the next state depends on the framebuffer. -/
theorem exec_cells (i : Instr) (s : State) :
    ∃ (color : Nat → Option Byte) (rest : State),
      (∀ cell v, color cell = some v → MayStore i v) ∧
      ∀ fb draw, ∃ fb', exec i (s.withFb fb draw) = .next (rest.withFb fb' draw) ∧
        ∀ cell, (rest.withFb fb' draw).fbCell cell = (color cell).getD ((s.withFb fb draw).fbCell cell) := by
  obtain ⟨pixel, rest, hpixel, hexec⟩ := exec_paints i s
  refine ⟨cellColor s.cfg pixel, rest, fun cell v hv => ?_, fun fb draw =>
    ⟨_, hexec fb draw, fbCell_withFb_paint s rest s.cfg pixel fb draw⟩⟩
  obtain ⟨px, py, hv⟩ := cellColor_eq_some hv
  exact hpixel px py v hv

/-! ### The obligations -/

/-- Settles O56, by computation. -/
theorem resetStateIsZero : Obligations.ResetStateIsZero :=
  ⟨rfl, rfl, rfl, rfl⟩

/-- Settles O33: only a command that a step decodes as other than SCROLLTO, a RESET and the end of a frame touch the
framebuffer. -/
theorem onlyDrawsResetAndFrameEndChangeTheFramebuffer :
    Obligations.OnlyDrawsResetAndFrameEndChangeTheFramebuffer := by
  intro a s t cell h hcp hne
  cases a with
  | engine =>
    obtain ⟨_, d, i, hd, hi, hdraw⟩ := step_changes_fbCell h hne
    exact .inr (.inr ⟨d, i, hi, hdraw, .inr ⟨rfl, hd⟩⟩)
  | issue d =>
    obtain ⟨hf, d', i, hd, hi, hdraw⟩ := step_changes_fbCell h (by simpa using hne)
    obtain rfl := eq_of_fetch_issue hcp hf hd
    exact .inr (.inr ⟨d', i, hi, hdraw, .inl rfl⟩)
  | readout =>
    refine .inr (.inl ⟨rfl, Bool.eq_false_iff.2 fun hp => hne ?_⟩)
    rw [act_readout_eq h, State.afterReadout_of_persist hp]
  | readStatus =>
    cases h
    exact absurd rfl hne
  | reset => exact .inl rfl

/-- Settles O34: only a step that decodes SCROLLTO and a RESET touch the scroll registers. -/
theorem onlyScrolltoAndResetChangeTheScroll : Obligations.OnlyScrolltoAndResetChangeTheScroll := by
  intro a s t h hcp hne
  cases a with
  | engine =>
    obtain ⟨_, d, x, y, hd, hi⟩ := step_changes_scroll h hne
    exact .inr ⟨d, x, y, hi, .inr ⟨rfl, hd⟩⟩
  | issue d =>
    obtain ⟨hf, d', x, y, hd, hi⟩ := step_changes_scroll h (by simpa using hne)
    obtain rfl := eq_of_fetch_issue hcp hf hd
    exact .inr ⟨d', x, y, hi, .inl rfl⟩
  | readout =>
    rw [act_readout_eq h] at hne
    simp at hne
  | readStatus =>
    cases h
    simp at hne
  | reset => exact .inl rfl

/-- Settles O35, by induction on the list of moves. -/
theorem noMoveChangesTheConfiguration : Obligations.NoMoveChangesTheConfiguration := by
  intro moves
  induction moves with
  | nil =>
    intro s t h
    cases h
    rfl
  | cons a moves ih =>
    intro s t h
    unfold actAll at h
    split at h
    · next u hu => exact (ih u t h).trans (act_cfg hu)
    · cases h
    · cases h

/-- Settles O41: a cell that changed was stored by the command. -/
theorem noCommandWrites255 : Obligations.NoCommandWrites255 := by
  intro i s
  obtain ⟨color, rest, hcolor, hexec⟩ := exec_cells i s
  obtain ⟨fb, hnext, hcell⟩ := hexec s.fb s.fbDraw
  refine ⟨_, hnext, fun cell hne => ?_⟩
  rw [hcell] at hne ⊢
  cases hc : color cell with
  | none => exact absurd (by rw [hc]; rfl) hne
  | some v => exact (hcolor cell v hc).1

/-- Without the host's duty the palette is not kept (C2): FILL 230 stores 230 in every cell of the canvas. -/
theorem fill230_leaves_palette {s : State} (h : 0 < s.cfg.cells) :
    ∃ t, exec (.fill 230) s = .next t ∧ inPalette (t.fbCell 0) = false := by
  refine ⟨_, execFill_eq 230 s, ?_⟩
  have hcell : (s.paint fun _ _ => opaqueColor 230).complete.fbCell 0 = 230 :=
    (fbCell_paint s (fun _ _ => opaqueColor 230) 0).trans (if_pos h)
  rw [hcell]
  decide

/-- Settles O42: each cell ends as it was or with a colour the command supplies. -/
theorem paletteCleanCommandsKeepThePalette : Obligations.PaletteCleanCommandsKeepThePalette := by
  refine ⟨fun i s hclean hcanvas => ?_, fun s h => fill230_leaves_palette h⟩
  obtain ⟨color, rest, hcolor, hexec⟩ := exec_cells i s
  obtain ⟨fb, hnext, hcell⟩ := hexec s.fb s.fbDraw
  refine ⟨_, hnext, fun cell hlt => ?_⟩
  rw [hcell]
  cases hc : color cell with
  | none => exact hcanvas cell hlt
  | some v => exact (hcolor cell v hc).2 hclean

/-- Settles O43: the stored colours and the rest of the next state are the same for all framebuffer contents. -/
theorem commandsNeverReadTheFramebuffer : Obligations.CommandsNeverReadTheFramebuffer := by
  intro i s fb draw
  obtain ⟨color, rest, _, hexec⟩ := exec_cells i s
  obtain ⟨fb₁, hnext₁, hcell₁⟩ := hexec s.fb s.fbDraw
  obtain ⟨fb₂, hnext₂, hcell₂⟩ := hexec fb draw
  refine ⟨_, _, hnext₁, hnext₂, rfl, fun cell => ?_⟩
  rw [hcell₁, hcell₂]
  cases color cell with
  | none => exact .inr ⟨rfl, rfl⟩
  | some v => exact .inl rfl

end Sys2Proof.Machine
end

section
/-! PROOFS. The family of 20_memory.md: when `BUSY` reads 0 and what is done by then (R62, R63), stepping through a
program text against issuing it (R60), one write per cell and BLIT (R61), and several instances (R67). -/

namespace Sys2Proof.Machine

/-! ### A state in which the engine waits for the host -/

/-- The engine has completed every command of the stream, unless a fault has halted it. -/
def State.CaughtUp (s : State) : Prop := s.status.fault = false → s.cp = s.stream.length

/-- `BUSY` is bit 0 of the `STATUS` register (R26). -/
theorem State.readStatus_bit0 (s : State) : s.readStatus.getLsbD 0 = s.status.busy := by
  rw [State.readStatus, Status.word, BitVec.getLsbD_append]
  simp

/-- With every command done the engine has nothing to fetch, or it is halted. -/
theorem step_of_caughtUp {s t : State} (hs : s.CaughtUp) (h : step s = .next t) : t = s := by
  obtain ⟨_, ⟨ht, _⟩ | ⟨d, hf, hd, _⟩⟩ := step_cases h
  · exact ht
  · exact absurd (hs hf) (Nat.ne_of_lt (fetch_lt hd))

/-- An ISSUE to a waiting engine: the descriptor ends the stream, `BUSY` is 0 again and the engine waits or is halted.
A step that finds the descriptor in a program text does the same, whatever text `ds` follows (R60, R161). -/
theorem act_issue_of_waiting {s : State} (hl : s.cfg.legal = true) (hf : s.status.fault = false)
    (hcp : s.cp = s.stream.length) (d : Descriptor) :
    ∃ t, act (.issue d) s = .next t ∧ t.cfg = s.cfg ∧ t.status.busy = false ∧ t.CaughtUp ∧
      ∀ ds, step { s with stream := s.stream ++ d :: ds } = .next { t with stream := t.stream ++ ds } := by
  have hstream : (s.issue d).stream = s.stream ++ [d] := by
    simp [State.issue_unfaulted hf, hcp]
  have hissue : s.issue d = { s.accept with stream := s.stream ++ [d] } := by
    rw [← hstream, State.issue_unfaulted hf]
    rfl
  obtain ⟨t, ht, hcfg, htstream, hbusy, hany, hcpt⟩ := performDescriptor_cases d (s.issue d)
  refine ⟨t, (act_issue hl hf hcp.le d).trans ht, by simpa using hcfg, hbusy, fun hft => ?_, fun ds => ?_⟩
  · obtain ⟨_, hcpt⟩ | ⟨hft', _⟩ := hcpt
    · simp [hcpt, htstream, hstream, hcp]
    · simp [hft] at hft'
  · have hperform := hany (s.stream ++ d :: ds)
    rw [hissue] at hperform
    rw [htstream, hstream, List.append_assoc, List.singleton_append, ← hperform]
    exact step_of_fetch hl hf (by simp [State.fetch, hcp])

/-! ### What holds at every point where the host can act -/

/-- An answered ISSUE returns with `BUSY = 0` and every command done (R63). -/
theorem act_issue_keeps_idle_caughtUp {s t : State} {d : Descriptor} (hbusy : s.status.busy = false)
    (hs : s.CaughtUp) (h : act (.issue d) s = .next t) : t.status.busy = false ∧ t.CaughtUp := by
  have hl : s.cfg.legal = true := (State.issue_cfg s d) ▸ (step_cases h).1
  cases hf : s.status.fault with
  | true =>
    cases (act_issue_halted hl hf d).symm.trans h
    exact ⟨hbusy, hs⟩
  | false =>
    obtain ⟨u, hu, _, hbusy', hdone, _⟩ := act_issue_of_waiting hl hf (hs hf) d
    cases hu.symm.trans h
    exact ⟨hbusy', hdone⟩

theorem act_keeps_idle_caughtUp {a : Action} {s t : State} (hbusy : s.status.busy = false) (hs : s.CaughtUp)
    (h : act a s = .next t) : t.status.busy = false ∧ t.CaughtUp := by
  cases a with
  | engine =>
    rw [step_of_caughtUp hs h]
    exact ⟨hbusy, hs⟩
  | issue d => exact act_issue_keeps_idle_caughtUp hbusy hs h
  | readout =>
    rw [act_readout_eq h]
    unfold State.afterReadout
    split <;> exact ⟨hbusy, hs⟩
  | readStatus =>
    cases h
    exact ⟨hbusy, hs⟩
  | reset =>
    cases h
    exact ⟨rfl, fun _ => rfl⟩

theorem reachable_idle_caughtUp {s : State} (h : Reachable s) : s.status.busy = false ∧ s.CaughtUp := by
  induction h with
  | start p _ => exact ⟨rfl, fun _ => rfl⟩
  | move a _ hact ih => exact act_keeps_idle_caughtUp ih.1 ih.2 hact

/-! ### Stepping through a program text against issuing it -/

/-- How the stepped run `t` and the issued run `u` of one program text end: alike but for text left unissued, and there
is none unless a fault has halted the engine (log 5, log 14). -/
def EndAlike (t u : State) : Prop :=
  u = { t with stream := u.stream } ∧ (t.status.fault = false → u = t) ∧
    ∃ unissued, t.stream = u.stream ++ unissued

theorem EndAlike.refl (s : State) : EndAlike s s := ⟨rfl, fun _ => rfl, [], by simp⟩

/-- A halted engine leaves all the text `ds` unissued. -/
theorem EndAlike.of_halted {s : State} (h : s.status.fault = true) (ds : List Descriptor) :
    EndAlike { s with stream := s.stream ++ ds } s :=
  ⟨rfl, fun hf => by simp [h] at hf, ds, rfl⟩

/-- The host's first ISSUE of a list of descriptors. -/
theorem issueAll_cons {s t : State} {d : Descriptor} (h : act (.issue d) s = .next t) (ds : List Descriptor) :
    s.issueAll (d :: ds) = t.issueAll ds := by
  simp only [State.issueAll, List.map_cons, actAll, h]

/-- Running the text `ds` that follows the completed commands, and issuing it, end alike: induction on the text. -/
theorem run_text_endAlike_issueAll (ds : List Descriptor) {s : State} (hl : s.cfg.legal = true) (hs : s.CaughtUp) :
    ∃ t u, Host.Core.run core ds.length { s with stream := s.stream ++ ds } = .next t ∧
      s.issueAll ds = .next u ∧ EndAlike t u := by
  induction ds generalizing s with
  | nil => exact ⟨s, s, by rw [List.append_nil]; rfl, rfl, .refl s⟩
  | cons d ds ih =>
    cases hf : s.status.fault with
    | true => exact ⟨_, s, core_run_of_halted (s := { s with stream := s.stream ++ d :: ds }) hl hf _,
        issueAll_of_halted hl hf _, .of_halted hf _⟩
    | false =>
      obtain ⟨t, hact, hcfg, _, hdone, hstep⟩ := act_issue_of_waiting hl hf (hs hf) d
      rw [List.length_cons, core_run_succ (hstep ds), issueAll_cons hact]
      exact ih (hcfg ▸ hl) hdone

/-! ### One write per cell -/

/-- A cell of the framebuffer is one pixel of the canvas (R21). -/
theorem pixelCell_inj {p : Params} {px py px' py' : Int} (h : onCanvas p px py = true)
    (h' : onCanvas p px' py' = true) (heq : pixelCell p px py = pixelCell p px' py') : px = px' ∧ py = py' := by
  obtain ⟨hx, hxw, hy, -⟩ := onCanvas_iff.1 h
  obtain ⟨hx', hxw', hy', -⟩ := onCanvas_iff.1 h'
  lift px to Nat using hx
  lift py to Nat using hy
  lift px' to Nat using hx'
  lift py' to Nat using hy'
  have hpx : px < p.wf := by exact_mod_cast hxw
  have hpx' : px' < p.wf := by exact_mod_cast hxw'
  rw [pixelCell_natCast, pixelCell_natCast] at heq
  constructor
  · rw [← canvasCell_mod py hpx, heq, canvasCell_mod py' hpx']
  · rw [← canvasCell_div py hpx, heq, canvasCell_div py' hpx']

/-- The blocks of `k` pixels that one axis of the source is scaled to are disjoint (R61, R142). -/
theorem block_offset_inj {x : Int} {k : Nat} {c c' : Fin 8} {d d' : Nat} (hd : d < k) (hd' : d' < k)
    (heq : x + c.val * k + d = x + c'.val * k + d') : c = c' ∧ d = d' := by
  have hsource : sourceCoord k (c.val * k + d) = some c := sourceCoord_eq_some.2 ⟨by omega, by omega⟩
  have hsource' : sourceCoord k (c.val * k + d) = some c' := sourceCoord_eq_some.2 ⟨by omega, by omega⟩
  obtain rfl : c = c' := Option.some.inj (hsource.symm.trans hsource')
  exact ⟨rfl, by omega⟩

/-! ### The obligations -/

/-- Settles O58: the move replaces entry `k` of the list or none. -/
theorem instancesShareNothing : Obligations.InstancesShareNothing := by
  intro k j a instances after h hne
  unfold actOn at h
  split at h
  · cases h
    rfl
  · split at h
    · cases h
      exact List.getElem?_set_ne hne.symm
    · cases h
    · cases h

/-- Settles O8: that `BUSY` is 0 and every command done is kept by every move. -/
theorem busyZeroMeansEveryIssuedCommandIsDone : Obligations.BusyZeroMeansEveryIssuedCommandIsDone := by
  refine ⟨fun s hs => ?_, fun s d hf => ?_⟩
  · obtain ⟨hbusy, hdone⟩ := reachable_idle_caughtUp hs
    exact ⟨s.readStatus_bit0.trans hbusy, hdone⟩
  · have hbusy : (s.issue d).status.busy = true := by rw [State.issue_unfaulted hf]; rfl
    exact ⟨(State.readStatus_bit0 _).trans hbusy, if_pos hbusy⟩

/-- Settles O9: a loaded text stands right after the completed commands. -/
theorem stepsOfAProgramAreItsIssues : Obligations.StepsOfAProgramAreItsIssues := by
  intro s ds hl hcp
  have hload : s.loadProgram ds = { s with stream := s.stream ++ ds } := by
    simp [State.loadProgram, hcp]
  rw [hload]
  exact run_text_endAlike_issueAll ds hl fun _ => hcp

/-- Settles O27: one cell is one canvas pixel, and on each axis one pixel lies in one block. -/
theorem blitVisitsNoCellTwice : Obligations.BlitVisitsNoCellTwice := by
  intro p x y k sx sy sx' sy' dx dy dx' dy' hdx hdy hdx' hdy' hon hon' hcell
  obtain ⟨hpx, hpy⟩ := pixelCell_inj hon hon' hcell
  obtain ⟨hsx, hdx⟩ := block_offset_inj hdx hdx' hpx
  obtain ⟨hsy, hdy⟩ := block_offset_inj hdy hdy' hpy
  exact ⟨hsx, hsy, hdx, hdy⟩

end Sys2Proof.Machine
end

section
/-! PROOFS. The family of 30_encoding.md: the decoder against the rows of the opcode table (R88), encode and decode as
inverses, from a descriptor and from its bytes (R92, R55), and the assembler (R91 to R93). -/

namespace Sys2Proof.Machine

open Sys2Proof.Laws

/-! ### The rows of the opcode table -/

theorem spells_iff {f : Format} {d : Descriptor} : spells f d = true ↔ d &&& f.mask = f.pattern := beq_iff_eq

/-- A row whose mask covers `D[31:24]` fixes the opcode. -/
theorem opcodeField_of_spells {f : Format} {d : Descriptor} (hmask : opcodeField f.mask = BitVec.allOnes 8)
    (h : spells f d = true) : opcodeField d = opcodeField f.pattern := by
  have hopcode : opcodeField (d &&& f.mask) = opcodeField d &&& opcodeField f.mask := BitVec.extractLsb'_and
  rw [← spells_iff.1 h, hopcode, hmask, BitVec.and_allOnes]

/-- The opcodes of R87 differ from row to row, and every mask covers them (R88). -/
theorem opcode_covered_and_distinct :
    (∀ f ∈ [formatF, formatR, formatB, formatS], opcodeField f.mask = BitVec.allOnes 8) ∧
    [formatF, formatR, formatB, formatS].Pairwise fun f g => opcodeField f.pattern ≠ opcodeField g.pattern := by
  decide

/-- No descriptor matches two rows (R88). -/
theorem rows_exclusive (d : Descriptor) :
    [formatF, formatR, formatB, formatS].Pairwise fun f g => ¬ (spells f d = true ∧ spells g d = true) := by
  obtain ⟨hmask, hdistinct⟩ := opcode_covered_and_distinct
  refine hdistinct.imp_of_mem fun {f g} hf hg hne ⟨hd, hd'⟩ => hne ?_
  rw [← opcodeField_of_spells (hmask f hf) hd, opcodeField_of_spells (hmask g hg) hd']

/-! ### What the decoder answers, row by row -/

section DecodeRow
variable {d : Descriptor}

theorem decode_of_formatF (h : spells formatF d = true) : decode d = .ok (.fill (colorField d)) := if_pos h

theorem decode_of_formatR (h : spells formatR d = true) :
    decode d = .ok (.fillrect (xField d).toInt (yField d).toInt (rwField d).toInt (rhField d).toInt
      (colorField d) (offField d)) := by
  have hexclusive := rows_exclusive d
  simp_all [decode]

theorem decode_of_formatB (h : spells formatB d = true) :
    decode d = .ok (.blit (xField d).toInt (yField d).toInt (tileField d).toNat (codeField d)
      (mxField d) (myField d) (scaleField d).toNat (offField d)) := by
  have hexclusive := rows_exclusive d
  simp_all [decode]

theorem decode_of_formatS (h : spells formatS d = true) :
    decode d = .ok (.scrollto (xField d).toInt (yField d).toInt) := by
  have hexclusive := rows_exclusive d
  simp_all [decode]

/-- A decoded command is that of a row the descriptor matches (R88). -/
theorem spells_of_decode {i : Instr} (h : decode d = .ok i) : spells (Spells.format i) d = true := by
  unfold decode at h
  split_ifs at h with hF hR hB hS
  · cases h
    exact hF
  · cases h
    exact hR
  · cases h
    exact hB
  · cases h
    exact hS

/-- A descriptor is illegal iff it matches no row (R88). -/
theorem decode_error_iff :
    (∃ r, decode d = .error r) ↔ ∀ f ∈ [formatF, formatR, formatB, formatS], ¬ spells f d = true := by
  simp only [List.forall_mem_cons, List.not_mem_nil, false_implies, implies_true, and_true]
  constructor
  · rintro ⟨r, hr⟩
    refine ⟨fun h => ?_, fun h => ?_, fun h => ?_, fun h => ?_⟩
    · cases hr.symm.trans (decode_of_formatF h)
    · cases hr.symm.trans (decode_of_formatR h)
    · cases hr.symm.trans (decode_of_formatB h)
    · cases hr.symm.trans (decode_of_formatS h)
  · rintro ⟨hF, hR, hB, hS⟩
    exact ⟨illegalReason d, by simp [decode, hF, hR, hB, hS]⟩

end DecodeRow

/-! ### Operands and their fields -/

theorem fitsCoord_iff {v : Int} : fitsCoord v = true ↔ -32768 ≤ v ∧ v ≤ 32767 := decide_eq_true_iff

@[simp] theorem fitsCoord_toInt (v : BitVec 16) : fitsCoord v.toInt = true := by
  have := v.le_toInt
  have := v.toInt_lt
  exact fitsCoord_iff.2 ⟨by omega, by omega⟩

@[simp] theorem fitsTile_toNat (v : BitVec 16) : fitsTile v.toNat = true := decide_eq_true (Nat.le_of_lt_succ v.isLt)

@[simp] theorem fitsScale_toNat (v : Byte) : fitsScale v.toNat = true := decide_eq_true (Nat.le_of_lt_succ v.isLt)

/-- Sign extension undoes the cut to 16 bits of a coordinate that fits (R86, R92). -/
theorem toInt_ofInt_of_fitsCoord {v : Int} (h : fitsCoord v = true) : (BitVec.ofInt 16 v).toInt = v := by
  obtain ⟨hlo, hhi⟩ := fitsCoord_iff.1 h
  exact BitVec.toInt_ofInt_eq_self (by decide) (by omega) (by omega)

theorem toNat_ofNat_of_fitsTile {t : Nat} (h : fitsTile t = true) : (BitVec.ofNat 16 t).toNat = t :=
  (BitVec.toNat_ofNat _ _).trans (Nat.mod_eq_of_lt (Nat.lt_succ_of_le (of_decide_eq_true h)))

theorem toNat_ofNat_of_fitsScale {k : Nat} (h : fitsScale k = true) : (BitVec.ofNat 8 k).toNat = k :=
  (BitVec.toNat_ofNat _ _).trans (Nat.mod_eq_of_lt (Nat.lt_succ_of_le (of_decide_eq_true h)))

/-- What a descriptor spells fits the fields (R86). -/
theorem wellFormed_of_decode {d : Descriptor} {i : Instr} (h : decode d = .ok i) : i.wellFormed = true := by
  have hd := spells_of_decode h
  cases i with
  | fill => rfl
  | fillrect =>
    cases h.symm.trans (decode_of_formatR hd)
    simp [Instr.wellFormed]
  | blit =>
    cases h.symm.trans (decode_of_formatB hd)
    simp [Instr.wellFormed]
  | scrollto =>
    cases h.symm.trans (decode_of_formatS hd)
    simp [Instr.wellFormed]

/-! ### The fields of four words (R81) -/

section Words
variable (w0 w1 w2 w3 : Word) (hi lo : BitVec 16)

/-- A slice of `W0` is the slice of the descriptor at the same place. -/
theorem extract_word0 {a n : Nat} (h : a + n ≤ 32) :
    (descriptorOfWords w0 w1 w2 w3).extractLsb' a n = w0.extractLsb' a n :=
  BitVec.extractLsb'_append_eq_of_add_le h

theorem extract_word1 {a n : Nat} (h : 32 ≤ a) (h' : a + n ≤ 64) :
    (descriptorOfWords w0 w1 w2 w3).extractLsb' a n = w1.extractLsb' (a - 32) n :=
  (BitVec.extractLsb'_append_eq_of_le h).trans (BitVec.extractLsb'_append_eq_of_add_le (by omega))

theorem extract_word2 {a n : Nat} (h : 64 ≤ a) (h' : a + n ≤ 96) :
    (descriptorOfWords w0 w1 w2 w3).extractLsb' a n = w2.extractLsb' (a - 64) n := by
  rw [descriptorOfWords, BitVec.extractLsb'_append_eq_of_le (by omega), BitVec.extractLsb'_append_eq_of_le (by omega),
    BitVec.extractLsb'_append_eq_of_add_le (by omega), Nat.sub_sub]

theorem xField_halves : xField (descriptorOfWords w0 (hi ++ lo) w2 w3) = lo :=
  (extract_word1 _ _ _ _ (by decide) (by decide)).trans BitVec.extractLsb'_append_eq_right

theorem yField_halves : yField (descriptorOfWords w0 (hi ++ lo) w2 w3) = hi :=
  (extract_word1 _ _ _ _ (by decide) (by decide)).trans BitVec.extractLsb'_append_eq_left

/-- `RW` and `TILE` share their place (R81). -/
theorem rwField_halves : rwField (descriptorOfWords w0 w1 (hi ++ lo) w3) = lo :=
  (extract_word2 _ _ _ _ (by decide) (by decide)).trans BitVec.extractLsb'_append_eq_right

theorem rhField_halves : rhField (descriptorOfWords w0 w1 (hi ++ lo) w3) = hi :=
  (extract_word2 _ _ _ _ (by decide) (by decide)).trans BitVec.extractLsb'_append_eq_left

theorem codeField_word3 : codeField (descriptorOfWords w0 w1 w2 w3) = w3 := by
  rw [codeField, descriptorOfWords, BitVec.extractLsb'_append_eq_of_le (by decide),
    BitVec.extractLsb'_append_eq_of_le (by decide)]
  exact BitVec.extractLsb'_append_eq_left

theorem colorField_low (rest : BitVec 24) (color : Byte) :
    colorField (descriptorOfWords (rest ++ color) w1 w2 w3) = color :=
  (extract_word0 _ _ _ _ (by decide)).trans BitVec.extractLsb'_append_eq_right

theorem scaleField_middle (scale low : Byte) :
    scaleField (descriptorOfWords (hi ++ scale ++ low) w1 w2 w3) = scale :=
  (extract_word0 _ _ _ _ (by decide)).trans <|
    (BitVec.extractLsb'_append_eq_of_le (by decide)).trans BitVec.extractLsb'_append_eq_right

end Words

/-! ### Encode, then decode -/

/-- The encoder's descriptor matches its command's row (R82 to R85). -/
theorem spells_encode (i : Instr) : spells (Spells.format i) (encode i) = true :=
  spells_iff.2 <| match i with
    | .fill c => Spells.fill c
    | .fillrect x y w h c o => Spells.fillrect x y w h c o
    | .blit x y t k mx my n o => Spells.blit x y t k mx my n o
    | .scrollto x y => Spells.scrollto x y

section EncodedFields
variable (x y w h : Int) (color : Byte) (tile scale : Nat) (code : Code) (mx my off : Bool)

theorem field_encode_fill : colorField (encode (.fill color)) = color := colorField_low _ _ _ _ _

theorem fields_encode_fillrect :
    let d := encode (.fillrect x y w h color off)
    xField d = .ofInt 16 x ∧ yField d = .ofInt 16 y ∧ rwField d = .ofInt 16 w ∧ rhField d = .ofInt 16 h ∧
      colorField d = color ∧ offField d = off := by
  refine ⟨xField_halves _ _ _ _ _, yField_halves _ _ _ _ _, rwField_halves _ _ _ _ _, rhField_halves _ _ _ _ _,
    colorField_low _ _ _ _ _, ?_⟩
  simp only [offField, encode, descriptorOfWords, flagBit, BitVec.getLsbD_append]
  simp

theorem fields_encode_blit :
    let d := encode (.blit x y tile code mx my scale off)
    xField d = .ofInt 16 x ∧ yField d = .ofInt 16 y ∧ tileField d = .ofNat 16 tile ∧ codeField d = code ∧
      mxField d = mx ∧ myField d = my ∧ scaleField d = .ofNat 8 scale ∧ offField d = off := by
  refine ⟨xField_halves _ _ _ _ _, yField_halves _ _ _ _ _, rwField_halves _ _ _ _ _, codeField_word3 _ _ _ _,
    ?_, ?_, scaleField_middle _ _ _ _ _ _, ?_⟩ <;>
  · simp only [mxField, myField, offField, encode, descriptorOfWords, flagBit, BitVec.getLsbD_append]
    simp

theorem fields_encode_scrollto :
    xField (encode (.scrollto x y)) = .ofInt 16 x ∧ yField (encode (.scrollto x y)) = .ofInt 16 y :=
  ⟨xField_halves _ _ _ _ _, yField_halves _ _ _ _ _⟩

end EncodedFields

/-- R92: encode followed by decode returns the operands. -/
theorem decode_encode {i : Instr} (h : i.wellFormed = true) : decode (encode i) = .ok i := by
  have hs := spells_encode i
  cases i with
  | fill => rw [decode_of_formatF hs, field_encode_fill]
  | fillrect x y w height =>
    simp only [Instr.wellFormed, Bool.and_eq_true] at h
    obtain ⟨⟨⟨hx, hy⟩, hw⟩, hh⟩ := h
    simp only [decode_of_formatR hs, fields_encode_fillrect, toInt_ofInt_of_fitsCoord, hx, hy, hw, hh]
  | blit x y tile _ _ _ scale =>
    simp only [Instr.wellFormed, Bool.and_eq_true] at h
    obtain ⟨⟨⟨hx, hy⟩, ht⟩, hk⟩ := h
    simp only [decode_of_formatB hs, fields_encode_blit, toInt_ofInt_of_fitsCoord, toNat_ofNat_of_fitsTile,
      toNat_ofNat_of_fitsScale, hx, hy, ht, hk]
  | scrollto x y =>
    simp only [Instr.wellFormed, Bool.and_eq_true] at h
    obtain ⟨hx, hy⟩ := h
    simp only [decode_of_formatS hs, fields_encode_scrollto, toInt_ofInt_of_fitsCoord, hx, hy]

/-! ### Descriptors that decode alike -/

/-- Descriptors that match one row differ at most in the bits its mask leaves free. -/
theorem eq_of_spells_of_free {f : Format} {d e : Descriptor} (hd : spells f d = true) (he : spells f e = true)
    (hfree : ∀ k < 128, f.mask.getLsbD k = false → d.getLsbD k = e.getLsbD k) : d = e := by
  have hmasked : d &&& f.mask = e &&& f.mask := (spells_iff.1 hd).trans (spells_iff.1 he).symm
  refine BitVec.eq_of_getLsbD_eq fun k hk => ?_
  cases hm : f.mask.getLsbD k with
  | false => exact hfree k hk hm
  | true => simpa [hm] using congrArg (·.getLsbD k) hmasked

/-- Bit `k` lies in the slice `[a, a + n)`, in which the descriptors agree. -/
theorem getLsbD_eq_of_slice {d e : Descriptor} {a n k : Nat} (h : d.extractLsb' a n = e.extractLsb' a n)
    (hk : a ≤ k ∧ k < a + n) : d.getLsbD k = e.getLsbD k := by
  have hbit := congrArg (·.getLsbD (k - a)) h
  have hlt : k - a < n := by omega
  simpa [hlt, Nat.add_sub_cancel' hk.1] using hbit

/-- The free bits of format F: `COLOR` (R82). -/
theorem formatF_free : ∀ k < 128, formatF.mask.getLsbD k = false → 0 ≤ k ∧ k < 0 + 8 := by decide

/-- The free bits of format R: `COLOR`, `OFF`, `X`, `Y`, `RW` and `RH` (R83). -/
theorem formatR_free : ∀ k < 128, formatR.mask.getLsbD k = false →
    (0 ≤ k ∧ k < 0 + 8) ∨ k = 18 ∨ (32 ≤ k ∧ k < 32 + 16) ∨ (48 ≤ k ∧ k < 48 + 16) ∨ (64 ≤ k ∧ k < 64 + 16) ∨
      (80 ≤ k ∧ k < 80 + 16) := by decide

/-- The free bits of format B: `SCALE`, `MX`, `MY`, `OFF`, `X`, `Y`, `TILE` and `CODE` (R84). -/
theorem formatB_free : ∀ k < 128, formatB.mask.getLsbD k = false →
    (8 ≤ k ∧ k < 8 + 8) ∨ k = 16 ∨ k = 17 ∨ k = 18 ∨ (32 ≤ k ∧ k < 32 + 16) ∨ (48 ≤ k ∧ k < 48 + 16) ∨
      (64 ≤ k ∧ k < 64 + 16) ∨ (96 ≤ k ∧ k < 96 + 32) := by decide

/-- The free bits of format S: `X` and `Y` (R85). -/
theorem formatS_free : ∀ k < 128, formatS.mask.getLsbD k = false →
    (32 ≤ k ∧ k < 32 + 16) ∨ (48 ≤ k ∧ k < 48 + 16) := by decide

/-- No two descriptors spell one command: the command's operands are the free bits of its row. -/
theorem decode_injective {d e : Descriptor} {i : Instr} (hd : decode d = .ok i) (he : decode e = .ok i) : d = e := by
  have hsd := spells_of_decode hd
  have hse := spells_of_decode he
  have hde := hd.trans he.symm
  refine eq_of_spells_of_free hsd hse fun k hk hm => ?_
  cases i with
  | fill =>
    rw [decode_of_formatF hsd, decode_of_formatF hse] at hde
    injection hde with hde
    injection hde with hcolor
    exact getLsbD_eq_of_slice hcolor (formatF_free k hk hm)
  | fillrect =>
    rw [decode_of_formatR hsd, decode_of_formatR hse] at hde
    injection hde with hde
    injection hde with hx hy hw hh hcolor hoff
    obtain h | rfl | h | h | h | h := formatR_free k hk hm
    · exact getLsbD_eq_of_slice hcolor h
    · exact hoff
    · exact getLsbD_eq_of_slice (BitVec.toInt_inj.1 hx) h
    · exact getLsbD_eq_of_slice (BitVec.toInt_inj.1 hy) h
    · exact getLsbD_eq_of_slice (BitVec.toInt_inj.1 hw) h
    · exact getLsbD_eq_of_slice (BitVec.toInt_inj.1 hh) h
  | blit =>
    rw [decode_of_formatB hsd, decode_of_formatB hse] at hde
    injection hde with hde
    injection hde with hx hy htile hcode hmx hmy hscale hoff
    obtain h | rfl | rfl | rfl | h | h | h | h := formatB_free k hk hm
    · exact getLsbD_eq_of_slice (BitVec.toNat_inj.1 hscale) h
    · exact hmx
    · exact hmy
    · exact hoff
    · exact getLsbD_eq_of_slice (BitVec.toInt_inj.1 hx) h
    · exact getLsbD_eq_of_slice (BitVec.toInt_inj.1 hy) h
    · exact getLsbD_eq_of_slice (BitVec.toNat_inj.1 htile) h
    · exact getLsbD_eq_of_slice hcode h
  | scrollto =>
    rw [decode_of_formatS hsd, decode_of_formatS hse] at hde
    injection hde with hde
    injection hde with hx hy
    obtain h | h := formatS_free k hk hm
    · exact getLsbD_eq_of_slice (BitVec.toInt_inj.1 hx) h
    · exact getLsbD_eq_of_slice (BitVec.toInt_inj.1 hy) h

/-! ### The 16 bytes of a descriptor -/

/-- Byte `j` of the memory holds bits `8j` to `8j + 7` of the descriptor (R55). -/
theorem getLsbD_descriptorOfBytes (bs : List Byte) {k : Nat} (hk : k < 128) :
    (descriptorOfBytes bs).getLsbD k = (bs[k / 8]?.getD 0).getLsbD (k % 8) := by
  induction bs generalizing k with
  | nil => simp [descriptorOfBytes]
  | cons b bs ih =>
    have hcons : descriptorOfBytes (b :: bs) = (descriptorOfBytes bs <<< 8) ||| b.setWidth 128 := rfl
    rw [hcons, BitVec.getLsbD_or, BitVec.getLsbD_shiftLeft, BitVec.getLsbD_setWidth]
    by_cases hlow : k < 8
    · simp [hk, hlow, Nat.div_eq_of_lt, Nat.mod_eq_of_lt]
    · obtain ⟨j, rfl⟩ := Nat.exists_eq_add_of_le (Nat.le_of_not_lt hlow)
      rw [BitVec.getLsbD_of_ge b (8 + j) (by omega), Nat.add_sub_cancel_left, ih (by omega)]
      simp [hk, Nat.add_div_left]

@[simp] theorem length_descriptorBytes (d : Descriptor) : (descriptorBytes d).length = 16 := by
  simp [descriptorBytes]

@[simp] theorem descriptorOfBytes_descriptorBytes (d : Descriptor) : descriptorOfBytes (descriptorBytes d) = d := by
  refine BitVec.eq_of_getLsbD_eq fun k hk => ?_
  have hbyte : k / 8 < 16 := by omega
  have hbit : k % 8 < 8 := by omega
  simp [getLsbD_descriptorOfBytes _ hk, descriptorBytes, hbyte, hbit, Nat.div_add_mod]

/-- A descriptor is read from its 16 bytes, whatever follows them (R55). -/
theorem decodeBytes_descriptorBytes_append {d : Descriptor} {i : Instr} (h : decode d = .ok i) (rest : List Byte) :
    decodeBytes (descriptorBytes d ++ rest) = .ok (i, rest) := by
  have htake : (descriptorBytes d ++ rest).take 16 = descriptorBytes d := List.take_left' (length_descriptorBytes d)
  have hdrop : (descriptorBytes d ++ rest).drop 16 = rest := List.drop_left' (length_descriptorBytes d)
  simp [decodeBytes, htake, hdrop, h]

/-! ### The assembler -/

theorem assembleInstr_eq_ok {i : Instr} {d : Descriptor} :
    assembleInstr i = .ok d ↔ i.wellFormed = true ∧ d = encode i := by
  unfold assembleInstr
  cases i.wellFormed <;> simp [eq_comm (a := d)]

/-- A line assembles iff each of its three stages answers: parsing, building, encoding. -/
theorem assembleLine_eq_ok_some {line : List Char} {d : Descriptor} :
    assembleLine line = .ok (some d) ↔
      ∃ mnemonic operands i, parseLine line = .ok (some (mnemonic, operands)) ∧
        buildCommand mnemonic operands = .ok i ∧ assembleInstr i = .ok d := by
  unfold assembleLine
  rcases parseLine line with _ | _ | ⟨mnemonic, operands⟩
  · simp [bind, Except.bind]
  · simp [bind, Except.bind, pure, Except.pure]
  · cases hb : buildCommand mnemonic operands with
    | error => simp [bind, Except.bind, hb]
    | ok i => cases hi : assembleInstr i <;> simp [bind, Except.bind, pure, Except.pure, hb, hi]

/-! ### Literal operands -/

@[simp] theorem colorOperand_toNat (color : Byte) : colorOperand (.literal color.toNat) = .ok color := by
  have := color.isLt
  rw [colorOperand, if_pos (by omega), BitVec.ofInt_natCast, BitVec.ofNat_toNat, BitVec.setWidth_eq]

@[simp] theorem codeOperand_toNat (code : Code) : codeOperand (.literal code.toNat) = .ok code := by
  have := code.isLt
  rw [codeOperand, if_pos (by omega), BitVec.ofInt_natCast, BitVec.ofNat_toNat, BitVec.setWidth_eq]

@[simp] theorem flagOperand_bit (b : Bool) : flagOperand (.literal (if b then 1 else 0)) = .ok b := by
  cases b <;> rfl

@[simp] theorem natOperand_natCast (n : Nat) : natOperand (.literal n) = .ok n := by
  simp [natOperand]

@[simp] theorem coordOperand_literal (v : Int) : coordOperand (.literal v) = .ok v := rfl

theorem colorOperand_literal_refused {v : Int} (h : v < 0 ∨ 255 < v) :
    colorOperand (.literal v) = .error .operandRange := if_neg (by omega)

theorem codeOperand_literal_refused {v : Int} (h : v < 0 ∨ 0xFFFFFFFF < v) :
    codeOperand (.literal v) = .error .operandRange := if_neg (by omega)

theorem natOperand_literal_refused {v : Int} (h : v < 0) : natOperand (.literal v) = .error .operandRange :=
  if_neg (by omega)

theorem flagOperand_literal_refused {v : Int} (h0 : v ≠ 0) (h1 : v ≠ 1) :
    flagOperand (.literal v) = .error .operandRange := by
  rw [flagOperand, if_neg h0, if_neg h1]

/-- FILL has one operand, its colour. -/
theorem buildCommand_fill (c : Operand) : buildCommand "fill".toList [c] = (colorOperand c).map .fill := by
  cases hc : colorOperand c <;> simp [buildCommand, hc, bind, Except.bind, pure, Except.pure, Except.map]

/-! ### The obligations -/

/-- Settles O2: the encoder's fields hold the operands, and 16 bytes hold the descriptor. -/
theorem encodedCommandsDecodeBack : Obligations.EncodedCommandsDecodeBack := fun _ h =>
  ⟨decode_encode h, length_descriptorBytes _, decodeBytes_descriptorBytes_append (decode_encode h)⟩

/-- Settles O3: what `d` decodes to is well-formed, so its encoding decodes alike, and decoding is injective. -/
theorem decodedDescriptorsEncodeBack : Obligations.DecodedDescriptorsEncodeBack := by
  intro d i h
  have hwf := wellFormed_of_decode h
  exact ⟨decode_injective (decode_encode hwf) h, hwf⟩

/-- Settles O4: the rows are tried in turn, and their opcodes make them exclusive. -/
theorem decodingFollowsMaskAndMatch : Obligations.DecodingFollowsMaskAndMatch := by
  intro d
  simp only [ne_eq, ← spells_iff]
  refine ⟨⟨?_, fun h => ⟨_, decode_of_formatF h⟩⟩, ⟨?_, fun h => ⟨_, _, _, _, _, _, decode_of_formatR h⟩⟩,
    ⟨?_, fun h => ⟨_, _, _, _, _, _, _, _, decode_of_formatB h⟩⟩, ⟨?_, fun h => ⟨_, _, decode_of_formatS h⟩⟩,
    decode_error_iff, rows_exclusive d⟩
  · rintro ⟨_, h⟩
    exact spells_of_decode h
  · rintro ⟨_, _, _, _, _, _, h⟩
    exact spells_of_decode h
  · rintro ⟨_, _, _, _, _, _, _, _, h⟩
    exact spells_of_decode h
  · rintro ⟨_, _, h⟩
    exact spells_of_decode h

/-- Settles O51: a command is assembled to its encoding, which decodes back. -/
theorem assembledCommandsDecode : Obligations.AssembledCommandsDecode := by
  refine ⟨fun i => ⟨fun h => ⟨encode i, assembleInstr_eq_ok.2 ⟨h, rfl⟩, decode_encode h⟩, fun h => ?_⟩, ?_⟩
  · simp [assembleInstr, h]
  · intro line d
    rw [assembleLine_eq_ok_some]
    constructor
    · rintro ⟨m, os, i, hparse, hbuild, hasm⟩
      obtain ⟨hwf, rfl⟩ := assembleInstr_eq_ok.1 hasm
      exact ⟨m, os, i, hparse, hbuild, hwf, rfl, decode_encode hwf⟩
    · rintro ⟨m, os, i, hparse, hbuild, hwf, hd, _⟩
      exact ⟨m, os, i, hparse, hbuild, assembleInstr_eq_ok.2 ⟨hwf, hd⟩⟩

/-- Settles O52: every operand reader returns the value of the literal that spells it. -/
theorem literalOperandsBuildTheirCommand : Obligations.LiteralOperandsBuildTheirCommand := by
  intro x y w h tile scale color code mx my off
  refine ⟨?_, ?_, ?_, ?_, fun hx => ?_, codeOperand_literal_refused, flagOperand_literal_refused,
    natOperand_literal_refused⟩
  · rw [buildCommand_fill, colorOperand_toNat]
    rfl
  · simp [buildCommand, bind, Except.bind, pure, Except.pure]
  · simp [buildCommand, bind, Except.bind, pure, Except.pure]
  · rfl
  · rw [buildCommand_fill, colorOperand_literal_refused hx]
    rfl

end Sys2Proof.Machine
end

section
/-! PROOFS. The family of 40_palette_codec.md: what SCC gives (R110), where it has a value and that it is a bijection
from the valid non-negative descriptors to 0 to 215 (R112), and the lanes of an LCC code (R111). -/

namespace Sys2Proof.Machine

/-! ### The single colour code -/

theorem scc_of_neg {n : Int} (h : n < 0) : scc n = some 255 := if_pos h

theorem scc_digits {r g b : Nat} (hr : r ≤ 5) (hg : g ≤ 5) (hb : b ≤ 5) :
    scc ((r * 100 + g * 10 + b : Nat) : Int) = some (BitVec.ofNat 8 (r * 36 + g * 6 + b)) := by
  have hdigit0 : ((r * 100 + g * 10 + b : Nat) : Int) / 100 = r := by omega
  have hdigit1 : ((r * 100 + g * 10 + b : Nat) : Int) / 10 % 10 = g := by omega
  have hdigit2 : ((r * 100 + g * 10 + b : Nat) : Int) % 10 = b := by omega
  unfold scc
  rw [if_neg (by omega), hdigit0, hdigit1, hdigit2, if_pos (by omega), ← BitVec.ofInt_natCast]
  push_cast
  rfl

/-- R110 and R112 together: a value comes from a negative descriptor or from three digits at most 5, and from nothing
else. -/
theorem scc_eq_some_iff {n : Int} {v : Byte} :
    scc n = some v ↔ (n < 0 ∧ v = 255) ∨ ∃ r g b : Nat, r ≤ 5 ∧ g ≤ 5 ∧ b ≤ 5 ∧
      n = ((r * 100 + g * 10 + b : Nat) : Int) ∧ v = BitVec.ofNat 8 (r * 36 + g * 6 + b) := by
  constructor
  · intro h
    by_cases hn : n < 0
    · rw [scc_of_neg hn] at h
      exact .inl ⟨hn, (Option.some.inj h).symm⟩
    · by_cases hdigits : n / 100 ≤ 5 ∧ n / 10 % 10 ≤ 5 ∧ n % 10 ≤ 5
      · obtain ⟨hr, hg, hb⟩ := hdigits
        obtain ⟨m, rfl⟩ := Int.eq_ofNat_of_zero_le (Int.not_lt.1 hn)
        have hm : m = m / 100 * 100 + m / 10 % 10 * 10 + m % 10 := by omega
        have hv := scc_digits (r := m / 100) (g := m / 10 % 10) (b := m % 10) (by omega) (by omega) (by omega)
        rw [← hm, h] at hv
        exact .inr ⟨m / 100, m / 10 % 10, m % 10, by omega, by omega, by omega, congrArg _ hm, Option.some.inj hv⟩
      · unfold scc at h
        rw [if_neg hn, if_neg hdigits] at h
        cases h
  · rintro (⟨hn, rfl⟩ | ⟨r, g, b, hr, hg, hb, rfl, rfl⟩)
    · exact scc_of_neg hn
    · exact scc_digits hr hg hb

theorem toNat_ofNat_baseSix {r g b : Nat} (hr : r ≤ 5) (hg : g ≤ 5) (hb : b ≤ 5) :
    (BitVec.ofNat 8 (r * 36 + g * 6 + b)).toNat = r * 36 + g * 6 + b :=
  (BitVec.toNat_ofNat _ _).trans (Nat.mod_eq_of_lt (by omega))

/-! ### The lanes of a colour code -/

/-- R54: lane `L` of a code is its byte `code[8L+7:8L]`. -/
theorem laneColor_eq_extractLsb' (code : Code) (l : Lane) : laneColor code l = code.extractLsb' (8 * l.toNat) 8 := by
  rw [laneColor, BitVec.setWidth_and, BitVec.setWidth_ushiftRight_eq_extractLsb, Nat.mul_comm]
  exact BitVec.and_allOnes

section Lanes
variable (l0 l1 l2 l3 : Byte)

/-- LCC's shifts put the four bytes side by side. -/
theorem shiftedLanes_eq_append :
    (l3.setWidth 32 <<< 24) ||| (l2.setWidth 32 <<< 16) ||| (l1.setWidth 32 <<< 8) ||| l0.setWidth 32 =
      l3 ++ l2 ++ l1 ++ l0 := by
  have h := BitVec.setWidth_append_append_append_eq_shiftLeft_setWidth_or (b := l3) (b' := l2) (b'' := l1)
    (b''' := l0) (w'''' := 32)
  rw [BitVec.setWidth_eq (l3 ++ l2 ++ l1 ++ l0)] at h
  exact h.symm

theorem laneColor_append_0 : laneColor (l3 ++ l2 ++ l1 ++ l0) 0 = l0 :=
  (laneColor_eq_extractLsb' _ _).trans BitVec.extractLsb'_append_eq_right

theorem laneColor_append_1 : laneColor (l3 ++ l2 ++ l1 ++ l0) 1 = l1 :=
  (laneColor_eq_extractLsb' _ _).trans <|
    (BitVec.extractLsb'_append_eq_of_le (by decide)).trans BitVec.extractLsb'_append_eq_right

theorem laneColor_append_2 : laneColor (l3 ++ l2 ++ l1 ++ l0) 2 = l2 :=
  (laneColor_eq_extractLsb' _ _).trans <|
    (BitVec.extractLsb'_append_eq_of_le (by decide)).trans <|
      (BitVec.extractLsb'_append_eq_of_le (by decide)).trans BitVec.extractLsb'_append_eq_right

theorem laneColor_append_3 : laneColor (l3 ++ l2 ++ l1 ++ l0) 3 = l3 :=
  (laneColor_eq_extractLsb' _ _).trans <|
    (BitVec.extractLsb'_append_eq_of_le (by decide)).trans <|
      (BitVec.extractLsb'_append_eq_of_le (by decide)).trans BitVec.extractLsb'_append_eq_left

end Lanes

/-! ### The layered colour code -/

theorem lcc_eq_some_iff {c1 c2 c3 c4 : Int} {code : Code} :
    lcc c1 c2 c3 c4 = some code ↔ ∃ l0 l1 l2 l3, scc c1 = some l0 ∧ scc c2 = some l1 ∧ scc c3 = some l2 ∧
      scc c4 = some l3 ∧ code = l3 ++ l2 ++ l1 ++ l0 := by
  unfold lcc
  split
  next h1 h2 h3 h4 => simp [h1, h2, h3, h4, shiftedLanes_eq_append, eq_comm]
  next hnone =>
    simp only [reduceCtorEq, false_iff]
    rintro ⟨_, _, _, _, h1, h2, h3, h4, _⟩
    exact hnone _ _ _ _ h1 h2 h3 h4

theorem lcc_eq_none_iff {c1 c2 c3 c4 : Int} :
    lcc c1 c2 c3 c4 = none ↔ scc c1 = none ∨ scc c2 = none ∨ scc c3 = none ∨ scc c4 = none := by
  rw [← not_iff_not]
  simp only [not_or, ← ne_eq, Option.ne_none_iff_exists', lcc_eq_some_iff]
  constructor
  · rintro ⟨_, l0, l1, l2, l3, h1, h2, h3, h4, _⟩
    exact ⟨⟨l0, h1⟩, ⟨l1, h2⟩, ⟨l2, h3⟩, ⟨l3, h4⟩⟩
  · rintro ⟨⟨l0, h1⟩, ⟨l1, h2⟩, ⟨l2, h3⟩, ⟨l3, h4⟩⟩
    exact ⟨_, l0, l1, l2, l3, h1, h2, h3, h4, rfl⟩

/-! ### The obligations -/

/-- Settles O48: the value is 255 or the number of three digits at most 5 in base 6. -/
theorem sccReadsBaseSixDigits : Obligations.SccReadsBaseSixDigits := by
  refine ⟨fun _ => scc_of_neg, fun _ _ _ => scc_digits, fun n v h => ?_⟩
  obtain hneg | ⟨r, g, b, hr, hg, hb, rfl, rfl⟩ := scc_eq_some_iff.1 h
  · exact .inl hneg
  · rw [toNat_ofNat_baseSix hr hg hb]
    exact .inr (by omega)

/-- Settles O49: an index determines its three base 6 digits, and they the descriptor. -/
theorem sccIsABijectionOntoThePalette : Obligations.SccIsABijectionOntoThePalette := by
  refine ⟨fun n => ?_, fun v hv => ?_, fun n m v hn hm h h' => ?_⟩
  · rw [Option.isSome_iff_exists]
    constructor
    · rintro ⟨v, h⟩
      obtain ⟨hneg, _⟩ | ⟨r, g, b, hr, hg, hb, rfl, _⟩ := scc_eq_some_iff.1 h
      · exact .inl hneg
      · exact .inr ⟨r, g, b, hr, hg, hb, rfl⟩
    · rintro (hneg | ⟨r, g, b, hr, hg, hb, rfl⟩)
      · exact ⟨_, scc_of_neg hneg⟩
      · exact ⟨_, scc_digits hr hg hb⟩
  · have hv6 : v / 36 * 36 + v / 6 % 6 * 6 + v % 6 = v := by omega
    have hscc := scc_digits (r := v / 36) (g := v / 6 % 6) (b := v % 6) (by omega) (by omega) (by omega)
    rw [hv6] at hscc
    exact ⟨_, Int.natCast_nonneg _, hscc⟩
  · obtain ⟨hneg, _⟩ | ⟨r, g, b, hr, hg, hb, rfl, rfl⟩ := scc_eq_some_iff.1 h
    · omega
    obtain ⟨hneg, _⟩ | ⟨r', g', b', hr', hg', hb', rfl, hv⟩ := scc_eq_some_iff.1 h'
    · omega
    have hindex := congrArg BitVec.toNat hv
    rw [toNat_ofNat_baseSix hr hg hb, toNat_ofNat_baseSix hr' hg' hb'] at hindex
    omega

/-- Settles O50: a code is the four values side by side, and there is none only if one of them is missing. -/
theorem lccPacksFourLanes : Obligations.LccPacksFourLanes := by
  refine fun _ _ _ _ => ⟨fun code h => ?_, lcc_eq_none_iff⟩
  obtain ⟨l0, l1, l2, l3, h1, h2, h3, h4, rfl⟩ := lcc_eq_some_iff.1 h
  rw [laneColor_append_0, laneColor_append_1, laneColor_append_2, laneColor_append_3]
  exact ⟨h1, h2, h3, h4⟩

end Sys2Proof.Machine
end

section
/-! PROOFS. The family of 41_atlas_fetch.md: the range condition against the 64 footprint indices (R123), the tile grid
of an atlas 256 wide (R125), the lane decode (R124) and what the loader stores (R120, R126). -/

namespace Sys2Proof.Machine

/-! ### Tile addressing -/

/-- R121 for `W = 256`: a tile's offset is `column + 256*row` of its top-left pixel. -/
theorem tileOffset_of_w_eq_256 {p : Params} (tile : Nat) (hw : p.w = 256) :
    tileOffset p tile = tile % 32 * 8 + tile / 32 * 8 * 256 := by
  rw [tileOffset, hw]

/-! ### The loader -/

/-- R120: the conversion loses nothing, since the quotient of a byte by 64 fits a lane selector. -/
@[simp] theorem toNat_laneOfChannel (c : Byte) : (laneOfChannel c).toNat = c.toNat / 64 :=
  (BitVec.toNat_ofNat _ _).trans (Nat.mod_eq_of_lt (Nat.div_lt_of_lt_mul c.isLt))

/-- A list of lanes numbered from `start` on: looking up `start + i` gives the lane at position `i`. -/
theorem lookupLane_zip_range' (lanes : List Lane) (start i : Nat) :
    lookupLane ((List.range' start lanes.length).zip lanes) (start + i) = lanes[i]? := by
  induction lanes generalizing start i with
  | nil => rfl
  | cons lane lanes ih =>
    rw [List.length_cons, List.range'_succ, List.zip_cons_cons, lookupLane]
    cases i with
    | zero => exact if_pos rfl
    | succ i => rw [if_neg (by omega), Nat.add_left_comm, Nat.add_comm i, ih, List.getElem?_cons_succ]

/-- R120: atlas cell `i` of the loaded list is the lane of channel value `i`. -/
theorem lookupLane_atlasOfChannels (channel : List Byte) (i : Nat) :
    lookupLane (atlasOfChannels channel) i = channel[i]?.map laneOfChannel := by
  have h := lookupLane_zip_range' (channel.map laneOfChannel) 0 i
  rwa [List.length_map, ← List.range_eq_range', Nat.zero_add, List.getElem?_map] at h

/-- R122: reading a cell that the loader filled from channel value `c`. -/
theorem pixelAt_of_atlasOfChannels {p : Params} {channel : List Byte} {i : Nat} {c : Byte}
    (hatlas : p.atlas = atlasOfChannels channel) (hc : channel[i]? = some c) (inside : i < p.atlasCells) :
    pixelAt p i inside = laneOfChannel c := by
  rw [pixelAt, hatlas, lookupLane_atlasOfChannels, hc, Option.map_some, Option.getD_some]

theorem loadAtlas_of_length_eq {im : Image} (p : Params) (h : im.channel.length = im.width * im.height) :
    loadAtlas p (some im) =
      some { p with w := im.width, h := im.height, atlas := atlasOfChannels im.channel } := if_pos h

/-- R126, log 17. -/
theorem loadAtlas_of_length_ne {im : Image} (p : Params) (h : im.channel.length ≠ im.width * im.height) :
    loadAtlas p (some im) = none := if_neg h

/-! ### The obligations -/

/-- Settles O44: every footprint index of a tile in range is inside, and the range test is the index of corner
`(7, 7)`. -/
theorem inRangeMeansTheFootprintFits : Obligations.InRangeMeansTheFootprintFits := by
  intro p tile
  constructor
  · intro h ex ey hex hey
    exact footprintIndex_lt h ⟨ex, Nat.lt_succ_of_le hex⟩ ⟨ey, Nat.lt_succ_of_le hey⟩
  · intro h
    exact h 7 7 le_rfl le_rfl

/-- Settles O45: with the offset as `column + 256*row` and the column at most 248, the last index of the footprint lies
in image row `row + 7`. -/
theorem atlasOf256ColumnsIsAGridOfTiles : Obligations.AtlasOf256ColumnsIsAGridOfTiles := by
  intro p tile hw
  rw [inRange, tileOffset_of_w_eq_256 tile hw, Params.atlasCells, hw]
  exact ⟨⟨by omega, by omega⟩, by omega⟩

/-- Settles O46, by the reading of a lane as a byte of the code. -/
theorem laneSelectorPicksItsByte : Obligations.LaneSelectorPicksItsByte := laneColor_eq_extractLsb'

/-- Settles O47: a load that succeeds stores the lane of channel value `i` in cell `i`, and it fails exactly without a
channel value per pixel. -/
theorem loaderStoresTheLaneOfEveryChannelValue : Obligations.LoaderStoresTheLaneOfEveryChannelValue := by
  refine fun p im => ⟨fun h => ⟨_, loadAtlas_of_length_eq p h, rfl, rfl, rfl, rfl, ?_⟩, loadAtlas_of_length_ne p⟩
  intro ax ay c inside _ hc
  rw [pixelAt_of_atlasOfChannels rfl hc, toNat_laneOfChannel]

end Sys2Proof.Machine
end

section
/-! PROOFS. The family of 42_fill.md: FILL and FILLRECT against their closed forms (R130, R132), their loops of single
cell writes (R130, R131) and their corner cases (R133). What is said of painting in general serves every draw. -/

namespace Sys2Proof.Machine

/-! ### Painting -/

@[simp] theorem State.complete_fbCell (s : State) (cell : Nat) : s.complete.fbCell cell = s.fbCell cell := rfl

/-- Painting sees a pixel function on the canvas alone (R51). -/
theorem paint_congr {p : Params} {pixel pixel' : Int → Int → Option Byte}
    (h : ∀ px py : Nat, px < p.wf → py < p.hf → pixel px py = pixel' px py) (m : Memory) :
    paint p pixel m = paint p pixel' m := by
  unfold paint paintedCells
  congr 1
  refine List.filterMap_congr fun cell hcell => ?_
  obtain ⟨hx, hy⟩ := cell_pixel (List.mem_range.1 hcell)
  exact congrArg (Option.map _) (h _ _ hx hy)

theorem paint_eq_self {p : Params} {pixel : Int → Int → Option Byte}
    (h : ∀ px py : Nat, px < p.wf → py < p.hf → pixel px py = none) (m : Memory) : paint p pixel m = m :=
  (paint_congr (pixel' := fun _ _ => none) h m).trans (paint_nothing p m)

theorem State.paint_congr {s : State} {pixel pixel' : Int → Int → Option Byte}
    (h : ∀ px py : Nat, px < s.cfg.wf → py < s.cfg.hf → pixel px py = pixel' px py) :
    s.paint pixel = s.paint pixel' := by
  rw [State.paint, State.paint, Machine.paint_congr h]

/-- A draw that colours no pixel of the canvas leaves the state as it is. -/
theorem State.paint_eq_self {s : State} {pixel : Int → Int → Option Byte}
    (h : ∀ px py : Nat, px < s.cfg.wf → py < s.cfg.hf → pixel px py = none) : s.paint pixel = s := by
  rw [State.paint, Machine.paint_eq_self h]

/-- Painting a second time by the same pixel function changes nothing. -/
theorem paint_paint (p : Params) (pixel : Int → Int → Option Byte) {m : Memory} (hm : m.wf = true) :
    paint p pixel (paint p pixel m) = paint p pixel m := by
  refine Memory.wf_ext (paint_wf (paint_wf hm)) (paint_wf hm) fun cell => ?_
  rw [read_paint, read_paint, ← Option.or_assoc, Option.or_self]

/-- The colour that painting stores in a cell is that of the cell's pixel on the canvas (R21). -/
theorem cellColor_eq_some_iff {p : Params} {pixel : Int → Int → Option Byte} {cell : Nat} {v : Byte} :
    cellColor p pixel cell = some v ↔
      ∃ px py : Int, onCanvas p px py = true ∧ cell = pixelCell p px py ∧ pixel px py = some v := by
  constructor
  · intro h
    obtain ⟨hcell, hv⟩ := Option.ite_none_right_eq_some.1 h
    obtain ⟨hx, hy⟩ := cell_pixel hcell
    refine ⟨_, _, onCanvas_iff.2 ⟨Int.natCast_nonneg _, by exact_mod_cast hx, Int.natCast_nonneg _,
      by exact_mod_cast hy⟩, ?_, hv⟩
    rw [pixelCell_natCast, Nat.mod_add_div']
  · rintro ⟨px, py, hon, rfl, hv⟩
    obtain ⟨hx, hxw, hy, hyh⟩ := onCanvas_iff.1 hon
    lift px to Nat using hx
    lift py to Nat using hy
    have hpx : px < p.wf := by exact_mod_cast hxw
    have hpy : py < p.hf := by exact_mod_cast hyh
    rw [pixelCell_natCast, cellColor, if_pos (canvasCell_lt hpx hpy), canvasCell_mod py hpx, canvasCell_div py hpx, hv]

/-! ### Loops of writes -/

/-- A loop of writes paints, if the cells that some turn writes are those the pixel function colours, with the same
value `F` (R57, R61). -/
theorem foldl_writes_eq_paint {α : Type} {F : Nat → Byte} {V : α → Nat → Prop} {turn : Memory → α → Memory}
    (hin : ∀ m x cell, V x cell → (turn m x).read cell = some (F cell))
    (hout : ∀ m x cell, ¬ V x cell → (turn m x).read cell = m.read cell)
    (hwf : ∀ m x, m.wf = true → (turn m x).wf = true)
    {l : List α} {p : Params} {pixel : Int → Int → Option Byte}
    (hcolor : ∀ cell v, cellColor p pixel cell = some v ↔ (∃ x ∈ l, V x cell) ∧ F cell = v)
    {m : Memory} (hm : m.wf = true) : l.foldl turn m = paint p pixel m := by
  refine Memory.wf_ext (foldl_wf hwf l hm) (paint_wf hm) fun cell => ?_
  have hread : (paint p pixel m).read cell = (cellColor p pixel cell).or (m.read cell) := read_paint p pixel m cell
  obtain ⟨hwritten, hkept⟩ := read_foldl_writes hin hout l m cell
  rw [hread]
  by_cases hV : ∃ x ∈ l, V x cell
  · rw [hwritten hV, (hcolor cell _).2 ⟨hV, rfl⟩, Option.some_or]
  · rw [hkept hV, Option.eq_none_iff_forall_ne_some.2 fun v hv => hV ((hcolor cell v).1 hv).1, Option.none_or]

/-- The cells a clipped write at `(px, py)` sets: one, or none off the canvas. -/
def Hits (p : Params) (px py : Int) (cell : Nat) : Prop := onCanvas p px py = true ∧ cell = pixelCell p px py

theorem read_clippedWrite_of_hits {p : Params} {px py : Int} {cell : Nat} (h : Hits p px py cell) (color : Byte)
    (m : Memory) : (clippedWrite p color m px py).read cell = some color :=
  (read_clippedWrite p color m px py cell).trans (if_pos h)

theorem read_clippedWrite_of_not_hits {p : Params} {px py : Int} {cell : Nat} (h : ¬ Hits p px py cell) (color : Byte)
    (m : Memory) : (clippedWrite p color m px py).read cell = m.read cell :=
  (read_clippedWrite p color m px py cell).trans (if_neg h)

/-- Reading after one row of clipped writes (R131's inner loop). -/
theorem read_clippedRow (p : Params) (color : Byte) (columns : List Int) (py : Int) (m : Memory) (cell : Nat) :
    ((∃ px ∈ columns, Hits p px py cell) →
      (columns.foldl (fun m px => clippedWrite p color m px py) m).read cell = some color) ∧
    ((¬ ∃ px ∈ columns, Hits p px py cell) →
      (columns.foldl (fun m px => clippedWrite p color m px py) m).read cell = m.read cell) :=
  read_foldl_writes (F := fun _ => color) (V := fun px => Hits p px py)
    (fun m _ _ h => read_clippedWrite_of_hits h color m) (fun m _ _ h => read_clippedWrite_of_not_hits h color m)
    columns m cell

/-! ### FILL -/

theorem fillLoop_eq_paint (p : Params) (color : Byte) {m : Memory} (hm : m.wf = true) :
    fillLoop p color m = paint p (fun _ _ => opaqueColor color) m := by
  unfold fillLoop
  split
  case isTrue h => rw [h, opaqueColor_transparent, paint_nothing]
  case isFalse h =>
    refine foldl_writes_eq_paint (F := fun _ => color) (V := fun a cell => cell = a)
      (fun m a cell hcell => (m.read_write a color cell).trans (if_pos hcell))
      (fun m a cell hcell => (m.read_write a color cell).trans (if_neg hcell))
      (fun m a => Memory.write_wf a color) (fun cell v => ?_) hm
    simp [cellColor, opaqueColor_of_ne h]

/-! ### FILLRECT -/

theorem rectPixel_eq_some_iff {x y w h : Int} {color : Byte} {px py : Int} {v : Byte} :
    rectPixel x y w h color px py = some v ↔
      (x ≤ px ∧ px < x + w ∧ y ≤ py ∧ py < y + h) ∧ color = v ∧ color ≠ transparent := by
  rw [rectPixel, Option.ite_none_right_eq_some, inRect_iff, opaqueColor_eq_some]

theorem rectPixel_of_inside {x y w h px py : Int} (color : Byte)
    (hin : x ≤ px ∧ px < x + w ∧ y ≤ py ∧ py < y + h) : rectPixel x y w h color px py = opaqueColor color :=
  if_pos (inRect_iff.2 hin)

theorem rectPixel_of_outside {x y w h px py : Int} (color : Byte)
    (hout : ¬ (x ≤ px ∧ px < x + w ∧ y ≤ py ∧ py < y + h)) : rectPixel x y w h color px py = none :=
  if_neg (mt inRect_iff.1 hout)

theorem rectPixel_transparent (x y w h px py : Int) : rectPixel x y w h transparent px py = none :=
  Option.eq_none_iff_forall_ne_some.2 fun _ hv => (rectPixel_eq_some_iff.1 hv).2.2 rfl

/-- The cells that FILLRECT's loop writes are those that `rectPixel` colours. -/
theorem cellColor_rectPixel {p : Params} {x y w h : Int} {color : Byte} (hcolor : color ≠ transparent) (cell : Nat)
    (v : Byte) : cellColor p (rectPixel x y w h color) cell = some v ↔
      (∃ py ∈ intRange y (y + h), ∃ px ∈ intRange x (x + w), Hits p px py cell) ∧ color = v := by
  simp only [cellColor_eq_some_iff, rectPixel_eq_some_iff, mem_intRange, Hits]
  constructor
  · rintro ⟨px, py, hon, hcell, ⟨hx, hxw, hy, hyh⟩, hv, _⟩
    exact ⟨⟨py, ⟨hy, hyh⟩, px, ⟨hx, hxw⟩, hon, hcell⟩, hv⟩
  · rintro ⟨⟨py, ⟨hy, hyh⟩, px, ⟨hx, hxw⟩, hon, hcell⟩, hv⟩
    exact ⟨px, py, hon, hcell, ⟨hx, hxw, hy, hyh⟩, hv, hcolor⟩

theorem fillrectLoop_eq_paint (p : Params) (x y w h : Int) (color : Byte) {m : Memory} (hm : m.wf = true) :
    fillrectLoop p x y w h color m = paint p (rectPixel x y w h color) m := by
  unfold fillrectLoop
  split
  case isTrue hc =>
    rw [hc, paint_eq_self fun px py _ _ => rectPixel_transparent x y w h px py]
  case isFalse hc =>
    exact foldl_writes_eq_paint (F := fun _ => color)
      (V := fun py cell => ∃ px ∈ intRange x (x + w), Hits p px py cell)
      (fun m py cell => (read_clippedRow p color _ py m cell).1)
      (fun m py cell => (read_clippedRow p color _ py m cell).2)
      (fun m py => foldl_wf (fun _ px => clippedWrite_wf px py) _) (cellColor_rectPixel hc) hm

/-! ### The obligations -/

/-- Settles O10: every pixel of the canvas is painted with the colour, or none is. -/
theorem fillWritesEveryCell : Obligations.FillWritesEveryCell := by
  refine fun color s => ⟨_, execFill_eq color s, rfl, fun hc => ?_, fun hc cell hcell => ?_, fun cell hcell =>
    (State.complete_fbCell _ cell).trans (fbCell_paint_off s _ hcell)⟩
  · subst hc
    exact paint_nothing s.cfg s.fb
  · rw [State.complete_fbCell, fbCell_paint, opaqueColor_of_ne hc]
    exact if_pos hcell

/-- Settles O11: the loop paints the canvas. -/
theorem fillRunsItsPseudocode : Obligations.FillRunsItsPseudocode := by
  intro color s hs
  rw [fillLoop_eq_paint s.cfg color hs]
  rfl

/-- Settles O12: painting twice is painting once. -/
theorem fillTwiceIsFillOnce : Obligations.FillTwiceIsFillOnce := by
  refine fun color s hs => ⟨_, _, execFill_eq color s, execFill_eq color _, ?_⟩
  simp only [State.paint, State.complete, Status.completed, paint_paint s.cfg _ hs]

/-- Settles O13: on the canvas the clipped rectangle is the rectangle. -/
theorem fillrectDrawsTheClippedRectangle : Obligations.FillrectDrawsTheClippedRectangle := by
  refine fun x y w h color off s => ⟨_, execFillrect_eq x y w h color off s, rfl, fun hc => ?_,
    fun px py hx hy => ?_, fun cell hcell => (State.complete_fbCell _ cell).trans (fbCell_paint_off s _ hcell)⟩
  · subst hc
    exact paint_eq_self (fun px py _ _ => rectPixel_transparent _ _ w h px py) s.fb
  · intro x' y'
    rw [State.complete_fbCell, fbCell_paint_pixel s _ hx hy]
    show (rectPixel x' y' w h color px py).getD _ = _
    by_cases hin : x' ≤ px ∧ px < x' + w ∧ y' ≤ py ∧ py < y' + h
    · rw [rectPixel_of_inside color hin]
      by_cases hc : color = 255
      · subst hc
        simp
      · rw [opaqueColor_of_ne hc, if_pos ⟨hc, by omega, by omega, by omega, by omega⟩, Option.getD_some]
    · rw [rectPixel_of_outside color hin, if_neg (by omega), Option.getD_none]

/-- Settles O14: the loop paints the rectangle's pixels on the canvas. -/
theorem fillrectRunsItsPseudocode : Obligations.FillrectRunsItsPseudocode := by
  intro x y w h color off s hs
  rw [fillrectLoop_eq_paint s.cfg _ _ w h color hs]
  rfl

/-- Settles O15: no pixel of the canvas is coloured. -/
theorem fillrectOfNothingDrawsNothing : Obligations.FillrectOfNothingDrawsNothing := by
  intro x y w h color off s x' y' hnothing
  have hblank : s.paint (rectPixel x' y' w h color) = s := State.paint_eq_self fun px py hx hy => by
    by_cases hc : color = 255
    · subst hc
      exact rectPixel_transparent x' y' w h px py
    · simp only [hc, or_false] at hnothing
      exact rectPixel_of_outside color (by omega)
  exact (execFillrect_eq x y w h color off s).trans (congrArg (fun t => Host.Outcome.next t.complete) hblank)

/-- Settles O16: every pixel of the canvas lies in the rectangle. -/
theorem fillrectOverTheCanvasIsFill : Obligations.FillrectOverTheCanvasIsFill := by
  intro x y w h color off s x' y' hx hy hw hh
  have hcover : s.paint (rectPixel x' y' w h color) = s.paint fun _ _ => opaqueColor color :=
    State.paint_congr fun px py hpx hpy => rectPixel_of_inside color (by omega)
  exact (execFillrect_eq x y w h color off s).trans (congrArg (fun t => Host.Outcome.next t.complete) hcover)

end Sys2Proof.Machine
end

section
/-! PROOFS. The family of 43_blit.md: BLIT against its closed form (R142), its loops of single cell writes (R140) and
what follows from the closed form (R143 to R146). -/

namespace Sys2Proof.Machine

/-! ### Source coordinates -/

/-- On one axis the offset of replica `d` of source coordinate `c` lies in the block of `c` (R144). -/
theorem sourceCoord_replica {scale d : Nat} (hd : d < scale) (c : Fin 8) :
    sourceCoord scale (c.val * scale + d) = some c :=
  sourceCoord_eq_some.2 ⟨by omega, by omega⟩

/-- The block of a source coordinate is the run of its replicas (R140 step 3e). -/
theorem sourceCoord_eq_some_iff_replica {scale : Nat} {u : Int} {c : Fin 8} :
    sourceCoord scale u = some c ↔ ∃ d < scale, u = ((c.val * scale : Nat) : Int) + (d : Int) := by
  constructor
  · intro h
    obtain ⟨hlow, hhigh⟩ := sourceCoord_eq_some.1 h
    exact ⟨(u - c.val * scale).toNat, by omega, by push_cast; omega⟩
  · rintro ⟨d, hd, rfl⟩
    exact_mod_cast sourceCoord_replica hd c

/-- Inside the square the source coordinate is the quotient of the offset by the scale (R142). -/
theorem sourceCoord_of_inside {scale : Nat} {u : Int} (hu : 0 ≤ u ∧ u < 8 * (scale : Int)) :
    ∃ c : Fin 8, sourceCoord scale u = some c ∧ (c.val : Int) = u / scale := by
  refine ⟨_, dif_pos hu, ?_⟩
  push_cast
  rw [Int.toNat_of_nonneg hu.1]

theorem sourceCoord_of_outside {scale : Nat} {u : Int} (hu : ¬ (0 ≤ u ∧ u < 8 * (scale : Int))) :
    sourceCoord scale u = none := dif_neg hu

theorem sourceCoord_reflect_of_some {scale : Nat} {u u' : Int} {c : Fin 8} (huu' : u + u' = 8 * scale - 1)
    (h : sourceCoord scale u = some c) : sourceCoord scale u' = some c.rev := by
  obtain ⟨hlow, hhigh⟩ := sourceCoord_eq_some.1 h
  have hrev : ((c.rev.val : Int)) * scale = 7 * scale - c.val * scale := by
    rw [← sub_mul, Fin.val_rev]
    congr 1
    omega
  exact sourceCoord_eq_some.2 ⟨by omega, by omega⟩

/-- Reflecting an offset within the square reflects its source coordinate within the tile (R143). -/
theorem sourceCoord_reflect {scale : Nat} {u u' : Int} (huu' : u + u' = 8 * scale - 1) :
    sourceCoord scale u' = (sourceCoord scale u).map Fin.rev := by
  cases hu : sourceCoord scale u with
  | some c => exact sourceCoord_reflect_of_some huu' hu
  | none =>
    refine Option.eq_none_iff_forall_ne_some.2 fun c hc => ?_
    have hsome := sourceCoord_reflect_of_some (u' := u) (by omega) hc
    rw [hu] at hsome
    cases hsome

/-- A mirrored axis is read from its other end. -/
theorem mirrorCoord_true_rev (c : Fin 8) : mirrorCoord true c.rev = mirrorCoord false c := by
  refine Fin.ext ?_
  simp only [mirrorCoord_val, Fin.val_rev, if_true, Bool.false_eq_true, if_false]
  omega

/-! ### The colour of a source pixel -/

/-- The colour that a source pixel selects through the code, 255 included (R140 steps 3a to 3c). -/
def sourceByte (p : Params) (tile : Nat) (inside : inRange p tile) (code : Code) (mx my : Bool)
    (sx sy : Fin 8) : Byte :=
  laneColor code (pixelAt p (footprintIndex p tile (mirrorCoord mx sx) (mirrorCoord my sy))
    (footprintIndex_lt inside (mirrorCoord mx sx) (mirrorCoord my sy)))

section BlitPixel
variable {p : Params} {tile : Nat} {inside : inRange p tile} {code : Code} {mx my : Bool} {scale : Nat}
  {x y px py : Int}

theorem sourceColor_eq (sx sy : Fin 8) : sourceColor p tile inside code mx my sx sy =
    opaqueColor (sourceByte p tile inside code mx my sx sy) := rfl

theorem sourceColor_mirrorX (sx sy : Fin 8) :
    sourceColor p tile inside code true my sx.rev sy = sourceColor p tile inside code false my sx sy := by
  simp only [sourceColor, mirrorCoord_true_rev]

theorem sourceColor_mirrorY (sx sy : Fin 8) :
    sourceColor p tile inside code mx true sx sy.rev = sourceColor p tile inside code mx false sx sy := by
  simp only [sourceColor, mirrorCoord_true_rev]

/-! ### The colour of a pixel -/

theorem blitPixel_eq_bind : blitPixel p tile inside code mx my scale x y px py =
    (sourceCoord scale (px - x)).bind fun sx =>
      (sourceCoord scale (py - y)).bind fun sy => sourceColor p tile inside code mx my sx sy := by
  unfold blitPixel
  cases sourceCoord scale (px - x) with
  | none => rfl
  | some sx => cases sourceCoord scale (py - y) <;> rfl

theorem blitPixel_of_source {sx sy : Fin 8} (hx : sourceCoord scale (px - x) = some sx)
    (hy : sourceCoord scale (py - y) = some sy) :
    blitPixel p tile inside code mx my scale x y px py = sourceColor p tile inside code mx my sx sy := by
  rw [blitPixel, hx, hy]

theorem blitPixel_eq_some_iff {v : Byte} : blitPixel p tile inside code mx my scale x y px py = some v ↔
    ∃ sx sy, (sourceCoord scale (px - x) = some sx ∧ sourceCoord scale (py - y) = some sy) ∧
      sourceColor p tile inside code mx my sx sy = some v := by
  simp [blitPixel_eq_bind, Option.bind_eq_some_iff, and_assoc]

/-- Outside the square of `8*scale` pixels BLIT writes nothing (R142). -/
theorem blitPixel_of_outside (hout : ¬ (0 ≤ px - x ∧ px - x < 8 * (scale : Int) ∧
    0 ≤ py - y ∧ py - y < 8 * (scale : Int))) : blitPixel p tile inside code mx my scale x y px py = none := by
  rw [blitPixel_eq_bind]
  by_cases hx : 0 ≤ px - x ∧ px - x < 8 * (scale : Int)
  · rw [sourceCoord_of_outside (u := py - y) (by omega)]
    exact Option.bind_fun_none _
  · rw [sourceCoord_of_outside hx, Option.bind_none]

/-- R143: mirroring in x colours the pixel at the reflected column. -/
theorem blitPixel_mirrorX {qx : Int} (hq : px + qx = 2 * x + 8 * scale - 1) :
    blitPixel p tile inside code true my scale x y qx py =
      blitPixel p tile inside code false my scale x y px py := by
  have hsource : sourceCoord scale (qx - x) = _ := sourceCoord_reflect (u := px - x) (by omega)
  simp only [blitPixel_eq_bind, hsource, Option.bind_map, Function.comp_def, sourceColor_mirrorX]

/-- R143: mirroring in y colours the pixel at the reflected row. -/
theorem blitPixel_mirrorY {qy : Int} (hq : py + qy = 2 * y + 8 * scale - 1) :
    blitPixel p tile inside code mx true scale x y px qy =
      blitPixel p tile inside code mx false scale x y px py := by
  have hsource : sourceCoord scale (qy - y) = _ := sourceCoord_reflect (u := py - y) (by omega)
  simp only [blitPixel_eq_bind, hsource, Option.bind_map, Function.comp_def, sourceColor_mirrorY]

/-- R145: when every lane holds 255 no pixel is coloured. -/
theorem blitPixel_all_transparent : blitPixel p tile inside 0xFFFFFFFF mx my scale x y px py = none := by
  have hlane : ∀ l, laneColor 0xFFFFFFFF l = transparent := by decide
  refine Option.eq_none_iff_forall_ne_some.2 fun v hv => blitPixel_ne_transparent hv ?_
  obtain ⟨l, rfl⟩ := blitPixel_eq_some hv
  exact hlane l

end BlitPixel

/-- A pixel in the block of source pixel `(sx, sy)` reads as that pixel's colour after the BLIT, or as before if the
colour is 255 (R142, R145). -/
theorem fbCell_blit_source {s : State} {tile : Nat} {inside : inRange s.cfg tile} {code : Code} {mx my : Bool}
    {scale : Nat} {x y : Int} {px py : Nat} {sx sy : Fin 8} (hpx : px < s.cfg.wf) (hpy : py < s.cfg.hf)
    (hx : sourceCoord scale (px - x) = some sx) (hy : sourceCoord scale (py - y) = some sy) :
    (s.paint (blitPixel s.cfg tile inside code mx my scale x y)).complete.fbCell (px + py * s.cfg.wf) =
      if sourceByte s.cfg tile inside code mx my sx sy = transparent then s.fbCell (px + py * s.cfg.wf)
      else sourceByte s.cfg tile inside code mx my sx sy := by
  rw [State.complete_fbCell, fbCell_paint_pixel s _ hpx hpy, blitPixel_of_source hx hy, sourceColor_eq, opaqueColor,
    apply_ite (Option.getD · _), Option.getD_none, Option.getD_some]

/-- Two draws that colour a pixel each alike leave both pixels untouched or give them the same value. -/
theorem fbCell_paint_alike (s : State) {pixel pixel' : Int → Int → Option Byte} {px py qx qy : Nat}
    (hpx : px < s.cfg.wf) (hpy : py < s.cfg.hf) (hqx : qx < s.cfg.wf) (hqy : qy < s.cfg.hf)
    (h : pixel' qx qy = pixel px py) :
    ((s.paint pixel).complete.fbCell (px + py * s.cfg.wf) = s.fbCell (px + py * s.cfg.wf) ∧
      (s.paint pixel').complete.fbCell (qx + qy * s.cfg.wf) = s.fbCell (qx + qy * s.cfg.wf)) ∨
    (s.paint pixel).complete.fbCell (px + py * s.cfg.wf) =
      (s.paint pixel').complete.fbCell (qx + qy * s.cfg.wf) := by
  rw [State.complete_fbCell, State.complete_fbCell, fbCell_paint_pixel s _ hpx hpy, fbCell_paint_pixel s _ hqx hqy, h]
  cases pixel px py with
  | none => exact .inl ⟨rfl, rfl⟩
  | some v => exact .inr rfl

/-! ### The loop of BLIT -/

/-- The cells that the block of source pixel `(sx, sy)` sets: those of its pixels on the canvas. -/
def BlockHits (p : Params) (scale : Nat) (x y : Int) (sx sy : Fin 8) (cell : Nat) : Prop :=
  ∃ px py, Hits p px py cell ∧ sourceCoord scale (px - x) = some sx ∧ sourceCoord scale (py - y) = some sy

/-- The pixels of a block are those that R140's two inner loops visit. -/
theorem blockHits_iff_replica {p : Params} {scale : Nat} {x y : Int} {sx sy : Fin 8} {cell : Nat} :
    BlockHits p scale x y sx sy cell ↔ ∃ dy ∈ List.range scale, ∃ dx ∈ List.range scale,
      Hits p (x + (sx.val * scale : Nat) + (dx : Int)) (y + (sy.val * scale : Nat) + (dy : Int)) cell := by
  simp only [BlockHits, sourceCoord_eq_some_iff_replica, List.mem_range]
  constructor
  · rintro ⟨px, py, hhits, ⟨dx, hdx, hx⟩, dy, hdy, hy⟩
    obtain rfl : px = x + (sx.val * scale : Nat) + (dx : Int) := by omega
    obtain rfl : py = y + (sy.val * scale : Nat) + (dy : Int) := by omega
    exact ⟨dy, hdy, dx, hdx, hhits⟩
  · rintro ⟨dy, hdy, dx, hdx, hhits⟩
    exact ⟨_, _, hhits, ⟨dx, hdx, by omega⟩, dy, hdy, by omega⟩

theorem read_blockLoop (p : Params) (scale : Nat) (x y : Int) (sx sy : Fin 8) (color : Byte) (m : Memory)
    (cell : Nat) :
    (BlockHits p scale x y sx sy cell → (blockLoop p scale x y sx sy color m).read cell = some color) ∧
    (¬ BlockHits p scale x y sx sy cell → (blockLoop p scale x y sx sy color m).read cell = m.read cell) := by
  have hrow (m : Memory) (dy cell : Nat) := read_foldl_writes (F := fun _ => color)
    (V := fun (dx : Nat) => Hits p (x + (sx.val * scale : Nat) + (dx : Int)) (y + (sy.val * scale : Nat) + (dy : Int)))
    (fun m _ _ h => read_clippedWrite_of_hits h color m) (fun m _ _ h => read_clippedWrite_of_not_hits h color m)
    (List.range scale) m cell
  rw [blockHits_iff_replica]
  exact read_foldl_writes (F := fun _ => color) (fun m dy cell => (hrow m dy cell).1)
    (fun m dy cell => (hrow m dy cell).2) (List.range scale) m cell

theorem blockLoop_wf {p : Params} {scale : Nat} {x y : Int} {sx sy : Fin 8} {color : Byte} {m : Memory}
    (h : m.wf = true) : (blockLoop p scale x y sx sy color m).wf = true :=
  foldl_wf (fun _ _ => foldl_wf (fun _ _ => clippedWrite_wf _ _) _) _ h

section SourceTurn
variable {p : Params} {scale : Nat} {x y : Int} {color : Fin 8 → Fin 8 → Byte}

/-- One turn of BLIT's loops over source pixels whose colours are `color`: the block of `(sx, sy)`, none if its colour
is 255. -/
def sourceTurn (p : Params) (scale : Nat) (x y : Int) (color : Fin 8 → Fin 8 → Byte) (sy : Fin 8) (m : Memory)
    (sx : Fin 8) : Memory :=
  if color sx sy = transparent then m else blockLoop p scale x y sx sy (color sx sy) m

/-- The cells that the turn of source pixel `(sx, sy)` sets. -/
def TurnHits (p : Params) (scale : Nat) (x y : Int) (color : Fin 8 → Fin 8 → Byte) (sx sy : Fin 8) (cell : Nat) :
    Prop :=
  BlockHits p scale x y sx sy cell ∧ color sx sy ≠ transparent

theorem read_sourceTurn_of_hits {sx sy : Fin 8} {cell : Nat} (h : TurnHits p scale x y color sx sy cell) (m : Memory) :
    (sourceTurn p scale x y color sy m sx).read cell = some (color sx sy) := by
  rw [sourceTurn, if_neg h.2]
  exact (read_blockLoop ..).1 h.1

theorem read_sourceTurn_of_not_hits {sx sy : Fin 8} {cell : Nat} (h : ¬ TurnHits p scale x y color sx sy cell)
    (m : Memory) : (sourceTurn p scale x y color sy m sx).read cell = m.read cell := by
  unfold sourceTurn
  split
  case isTrue => rfl
  case isFalse hopaque => exact (read_blockLoop ..).2 fun hblock => h ⟨hblock, hopaque⟩

theorem sourceTurn_wf (sx sy : Fin 8) {m : Memory} (h : m.wf = true) :
    (sourceTurn p scale x y color sy m sx).wf = true := by
  unfold sourceTurn
  split
  · exact h
  · exact blockLoop_wf h

/-- Reading after one row of source pixels, if all turns that set a cell set it to its one value of `F` (R61). -/
theorem read_sourceRow {F : Nat → Byte}
    (hF : ∀ sx sy cell, TurnHits p scale x y color sx sy cell → F cell = color sx sy)
    (row : List (Fin 8)) (sy : Fin 8) (m : Memory) (cell : Nat) :
    ((∃ sx ∈ row, TurnHits p scale x y color sx sy cell) →
      (row.foldl (sourceTurn p scale x y color sy) m).read cell = some (F cell)) ∧
    ((¬ ∃ sx ∈ row, TurnHits p scale x y color sx sy cell) →
      (row.foldl (sourceTurn p scale x y color sy) m).read cell = m.read cell) :=
  read_foldl_writes (V := fun sx => TurnHits p scale x y color sx sy)
    (fun m sx cell h => by rw [read_sourceTurn_of_hits h, hF sx sy cell h])
    (fun m _ _ h => read_sourceTurn_of_not_hits h m) row m cell

end SourceTurn

theorem blitLoop_eq_foldl_sourceTurn (p : Params) (tile : Nat) (inside : inRange p tile) (code : Code) (mx my : Bool)
    (scale : Nat) (x y : Int) (m : Memory) :
    blitLoop p tile inside code mx my scale x y m =
      (List.finRange 8).foldl (fun m sy => (List.finRange 8).foldl
        (sourceTurn p scale x y (sourceByte p tile inside code mx my) sy) m) m := rfl

/-- The colour that BLIT stores in a cell is that of the source pixel whose turn sets the cell (R142). -/
theorem cellColor_blitPixel {p : Params} {tile : Nat} {inside : inRange p tile} {code : Code} {mx my : Bool}
    {scale : Nat} {x y : Int} {cell : Nat} {v : Byte} :
    cellColor p (blitPixel p tile inside code mx my scale x y) cell = some v ↔
      ∃ sx sy, TurnHits p scale x y (sourceByte p tile inside code mx my) sx sy cell ∧
        sourceByte p tile inside code mx my sx sy = v := by
  simp only [cellColor_eq_some_iff, blitPixel_eq_some_iff, TurnHits, BlockHits, Hits, sourceColor_eq,
    opaqueColor_eq_some]
  constructor
  · rintro ⟨px, py, hon, hcell, sx, sy, hsource, hv, hopaque⟩
    exact ⟨sx, sy, ⟨⟨px, py, ⟨hon, hcell⟩, hsource⟩, hopaque⟩, hv⟩
  · rintro ⟨sx, sy, ⟨⟨px, py, ⟨hon, hcell⟩, hsource⟩, hopaque⟩, hv⟩
    exact ⟨px, py, hon, hcell, sx, sy, hsource, hv, hopaque⟩

/-- The value that painting by `pixel` stores in a cell; 255, which no draw stores, if it stores none. -/
def storedByte (p : Params) (pixel : Int → Int → Option Byte) (cell : Nat) : Byte :=
  (cellColor p pixel cell).getD transparent

theorem storedByte_of_cellColor {p : Params} {pixel : Int → Int → Option Byte} {cell : Nat} {v : Byte}
    (h : cellColor p pixel cell = some v) : storedByte p pixel cell = v := by
  rw [storedByte, h, Option.getD_some]

/-- BLIT's loop paints: whichever turn writes a cell, it writes the colour that `blitPixel` gives the cell's pixel. -/
theorem blitLoop_eq_paint (p : Params) (tile : Nat) (inside : inRange p tile) (code : Code) (mx my : Bool)
    (scale : Nat) (x y : Int) {m : Memory} (hm : m.wf = true) :
    blitLoop p tile inside code mx my scale x y m = paint p (blitPixel p tile inside code mx my scale x y) m := by
  have hstored (sx sy cell) (h : TurnHits p scale x y (sourceByte p tile inside code mx my) sx sy cell) :
      storedByte p (blitPixel p tile inside code mx my scale x y) cell = sourceByte p tile inside code mx my sx sy :=
    storedByte_of_cellColor (cellColor_blitPixel.2 ⟨sx, sy, h, rfl⟩)
  rw [blitLoop_eq_foldl_sourceTurn]
  refine foldl_writes_eq_paint (fun m sy cell => (read_sourceRow hstored _ sy m cell).1)
    (fun m sy cell => (read_sourceRow hstored _ sy m cell).2)
    (fun m sy => foldl_wf (fun _ sx => sourceTurn_wf sx sy) _) (fun cell v => ?_) hm
  simp only [List.mem_finRange, true_and]
  constructor
  · intro h
    obtain ⟨sx, sy, hhits, -⟩ := cellColor_blitPixel.1 h
    exact ⟨⟨sy, sx, hhits⟩, storedByte_of_cellColor h⟩
  · rintro ⟨⟨sy, sx, hhits⟩, rfl⟩
    exact cellColor_blitPixel.2 ⟨sx, sy, hhits, (hstored sx sy cell hhits).symm⟩

/-! ### The scroll registers -/

theorem originX_absolute (x : Int) (s : State) : originX false x s = x := rfl
theorem originY_absolute (y : Int) (s : State) : originY false y s = y := rfl
theorem originX_relative (x : Int) (s : State) : originX true x s = x - s.scrollX.toInt := rfl
theorem originY_relative (y : Int) (s : State) : originY true y s = y - s.scrollY.toInt := rfl

section Scroll
variable (x y : Int) (tile : Nat) (code : Code) (mx my : Bool) (scale : Nat) (s : State)

theorem execBlit_relative : exec (.blit x y tile code mx my scale true) s =
    exec (.blit (x - s.scrollX.toInt) (y - s.scrollY.toInt) tile code mx my scale false) s := by
  simp only [exec, execBlit, originX_relative, originY_relative, originX_absolute, originY_absolute]

theorem execFillrect_relative (w h : Int) (color : Byte) : exec (.fillrect x y w h color true) s =
    exec (.fillrect (x - s.scrollX.toInt) (y - s.scrollY.toInt) w h color false) s := by
  simp only [execFillrect_eq, originX_relative, originY_relative, originX_absolute, originY_absolute]

variable {tile scale s} in
theorem execBlit_absolute (hs : scale ≠ 0) (inside : inRange s.cfg tile) :
    exec (.blit x y tile code mx my scale false) s =
      .next (s.paint (blitPixel s.cfg tile inside code mx my scale x y)).complete := by
  rw [execBlit_inRange hs inside, originX_absolute, originY_absolute]

theorem execFillrect_absolute (w h : Int) (color : Byte) : exec (.fillrect x y w h color false) s =
    .next (s.paint (rectPixel x y w h color)).complete := by
  rw [execFillrect_eq, originX_absolute, originY_absolute]

/-- R146: with `off = 0` BLIT neither reads nor writes the scroll registers. -/
theorem execBlit_ignores_scroll (scrollX scrollY : BitVec 16) :
    ∃ t, exec (.blit x y tile code mx my scale false) s = .next t ∧
      exec (.blit x y tile code mx my scale false) { s with scrollX := scrollX, scrollY := scrollY } =
        .next { t with scrollX := scrollX, scrollY := scrollY } := by
  by_cases hs : scale = 0
  · subst hs
    exact ⟨_, execBlit_badScale .., execBlit_badScale ..⟩
  by_cases inside : inRange s.cfg tile
  · exact ⟨_, execBlit_absolute x y code mx my hs inside,
      execBlit_absolute (s := { s with scrollX := scrollX, scrollY := scrollY }) x y code mx my hs inside⟩
  · exact ⟨_, execBlit_atlasRange hs inside,
      execBlit_atlasRange (s := { s with scrollX := scrollX, scrollY := scrollY }) hs inside⟩

end Scroll

/-! ### The obligations -/

/-- Settles O17: inside the square the pixel lies in the block of one source pixel. -/
theorem blitDrawsTheTile : Obligations.BlitDrawsTheTile := by
  refine fun x y tile code mx my k off s hk inside => ⟨_, execBlit_inRange hk inside, rfl,
    fun px py hpx hpy => ?_, fun cell hcell => (State.complete_fbCell _ cell).trans (fbCell_paint_off s _ hcell)⟩
  intro u v
  constructor
  · intro hout
    rw [State.complete_fbCell, fbCell_paint_pixel s _ hpx hpy]
    exact congrArg (Option.getD · _) (blitPixel_of_outside hout)
  · rintro ⟨hu, hu', hv, hv'⟩
    obtain ⟨sx, hx, hsx⟩ := sourceCoord_of_inside ⟨hu, hu'⟩
    obtain ⟨sy, hy, hsy⟩ := sourceCoord_of_inside ⟨hv, hv'⟩
    have hlt := footprintIndex_lt inside (mirrorCoord mx sx) (mirrorCoord my sy)
    have hcell := fbCell_blit_source (inside := inside) (code := code) (mx := mx) (my := my) hpx hpy hx hy
    simp only [footprintIndex, mirrorCoord_val] at hlt
    simp only [sourceByte, footprintIndex, mirrorCoord_val] at hcell
    refine ⟨sx, sy, hsx, hsy, hlt, ?_⟩
    rw [ite_not]
    exact hcell

/-- Settles O18: the loop paints the blocks of the opaque source pixels. -/
theorem blitRunsItsPseudocode : Obligations.BlitRunsItsPseudocode := by
  refine fun x y tile code mx my k off s hs => ⟨fun hk => ?_, execBlit_atlasRange, fun hk inside => ?_⟩
  · subst hk
    exact execBlit_badScale x y tile code mx my off s
  · rw [blitLoop_eq_paint s.cfg tile inside code mx my k _ _ hs]
    exact execBlit_inRange hk inside

/-- Settles O22: the two pixels are coloured alike. -/
theorem blitMirrorXReversesColumns : Obligations.BlitMirrorXReversesColumns :=
  fun _ _ _ _ _ _ _ s hk inside => ⟨_, _, execBlit_inRange hk inside, execBlit_inRange hk inside,
    fun _ _ _ hpx hqx hpy hq => fbCell_paint_alike s hpx hpy hqx hpy (blitPixel_mirrorX hq)⟩

/-- Settles O23: the two pixels are coloured alike. -/
theorem blitMirrorYReversesRows : Obligations.BlitMirrorYReversesRows :=
  fun _ _ _ _ _ _ _ s hk inside => ⟨_, _, execBlit_inRange hk inside, execBlit_inRange hk inside,
    fun _ _ _ hpx hpy hqy hq => fbCell_paint_alike s hpx hpy hpx hqy (blitPixel_mirrorY hq)⟩

/-- Settles O24: a replica lies in the block of its source pixel. -/
theorem blitScalesEachSourcePixelToABlock : Obligations.BlitScalesEachSourcePixelToABlock := by
  refine fun x y tile code mx my k off s hk inside => ⟨_, execBlit_inRange hk inside, ?_⟩
  intro sx sy dx dy px py hdx hdy hpx hpy hx hy
  have hsx : sourceCoord k (px - originX off x s) = some sx :=
    sourceCoord_eq_some_iff_replica.2 ⟨dx, hdx, by rw [hx, add_assoc]; push_cast; exact add_sub_cancel_left _ _⟩
  have hsy : sourceCoord k (py - originY off y s) = some sy :=
    sourceCoord_eq_some_iff_replica.2 ⟨dy, hdy, by rw [hy, add_assoc]; push_cast; exact add_sub_cancel_left _ _⟩
  exact fbCell_blit_source hpx hpy hsx hsy

/-- Settles O25: with every lane transparent no pixel is coloured. -/
theorem transparentBlitWritesNothing : Obligations.TransparentBlitWritesNothing := by
  refine fun x y tile mx my k off s hk => ⟨fun inside => ?_, execBlit_atlasRange hk⟩
  rw [execBlit_inRange hk inside, State.paint_eq_self fun _ _ _ _ => blitPixel_all_transparent]
  rfl

/-- Settles O26: the operands meet the scroll registers in `originX` and `originY` alone. -/
theorem drawsAreRelativeToTheScrollOffset : Obligations.DrawsAreRelativeToTheScrollOffset :=
  fun x y w h color tile code mx my k s scrollX scrollY => ⟨execBlit_relative x y tile code mx my k s,
    execFillrect_relative x y s w h color, execBlit_ignores_scroll x y tile code mx my k s scrollX scrollY,
    _, execFillrect_absolute x y s w h color, execFillrect_absolute x y _ w h color⟩

end Sys2Proof.Machine
end

section
/-! PROOFS. The family of 44_scroll_and_host.md: what SCROLLTO sets (R160), what an ISSUE and a step run (R161), and
what READOUT and READSTATUS return (R162, R163). -/

namespace Sys2Proof.Machine

/-! ### The descriptor the engine performs -/

/-- Performing a descriptor that spells a command is running the command with `BUSY` set. -/
theorem performDescriptor_of_decode {d : Descriptor} {i : Instr} (h : decode d = .ok i) (s : State) :
    performDescriptor d s = exec i s.accept := by
  rw [performDescriptor, h]

/-- An issued descriptor stands at the place in the stream where `cp` was before the ISSUE. -/
theorem stream_issue_cp {s : State} (hf : s.status.fault = false) (hcp : s.cp ≤ s.stream.length) (d : Descriptor) :
    (s.issue d).stream[s.cp]? = some d := by
  rw [← State.issue_cp s d]
  exact fetch_issue hf hcp d

/-! ### READOUT (R162) -/

@[simp] theorem State.length_readout (s : State) : s.readout.length = s.cfg.cells := by
  rw [State.readout, List.length_map, List.length_range]

theorem State.getElem?_readout (s : State) {i : Nat} (h : i < s.cfg.cells) : s.readout[i]? = some (s.fbCell i) := by
  rw [State.readout, List.getElem?_map, List.getElem?_range h, Option.map_some]

/-- Contents that do not persist are forgotten by a READOUT (R194). -/
theorem State.afterReadout_of_not_persist {s : State} (h : s.cfg.persist = false) : s.afterReadout = s.forgetFb :=
  if_neg (by simp [h])

/-- Right after its contents became unspecified a cell holds the free value of the new draw. -/
@[simp] theorem State.forgetFb_fbCell (s : State) (cell : Nat) :
    s.forgetFb.fbCell cell = Config.freeCell (s.fbDraw + 1) cell := rfl

theorem act_readout_of_idle {s : State} (h : s.status.busy = false) : act .readout s = .next s.afterReadout :=
  if_neg (by simp [h])

theorem act_readout_of_busy {s : State} (h : s.status.busy = true) : act .readout s = .fault .readoutWhileBusy :=
  if_pos h

/-! ### The word of READSTATUS (R26, R163) -/

section StatusWord
variable (s : State)

theorem State.readStatus_bit1 : s.readStatus.getLsbD 1 = s.status.fault := by
  rw [State.readStatus, Status.word, BitVec.getLsbD_append, BitVec.getLsbD_append]
  simp

/-- Bits 3:2 are reserved. -/
theorem State.readStatus_bits_3_2 : s.readStatus.extractLsb' 2 2 = 0 :=
  (BitVec.extractLsb'_append_eq_of_le (by decide)).trans <|
    (BitVec.extractLsb'_append_eq_of_le (by decide)).trans BitVec.extractLsb'_append_eq_right

theorem State.readStatus_bits_7_4 : s.readStatus.extractLsb' 4 4 = s.status.cause :=
  (BitVec.extractLsb'_append_eq_of_le (by decide)).trans <|
    (BitVec.extractLsb'_append_eq_of_le (by decide)).trans <|
      (BitVec.extractLsb'_append_eq_of_le (by decide)).trans BitVec.extractLsb'_append_eq_right

/-- Bits 31:8 are reserved. -/
theorem State.readStatus_bits_31_8 : s.readStatus.extractLsb' 8 24 = 0 :=
  (BitVec.extractLsb'_append_eq_of_le (by decide)).trans <|
    (BitVec.extractLsb'_append_eq_of_le (by decide)).trans <|
      (BitVec.extractLsb'_append_eq_of_le (by decide)).trans BitVec.extractLsb'_append_eq_left

end StatusWord

/-! ### The obligations -/

/-- Settles O7: the ISSUE performs the encoder's descriptor, which decodes to the command. -/
theorem issuedCommandRunsNext : Obligations.IssuedCommandRunsNext := by
  intro s i hl hf hcp hi
  have hact : act (.issue (encode i)) s = performDescriptor (encode i) (s.issue (encode i)) :=
    act_issue hl hf hcp (encode i)
  obtain ⟨t, ht, _, hstream, hbusy, _⟩ := performDescriptor_cases (encode i) (s.issue (encode i))
  refine ⟨t, ?_, hact.trans ht, hbusy, ?_⟩
  · rw [hact, performDescriptor_of_decode (decode_encode hi), State.issue_unfaulted hf]
    rfl
  · rw [hstream]
    exact stream_issue_cp hf hcp (encode i)

/-- Settles O28: operands that fit 16 bits are read back from the registers as they are. -/
theorem scrolltoSetsTheScrollRegisters : Obligations.ScrolltoSetsTheScrollRegisters := by
  intro x y s h
  obtain ⟨hx, hy⟩ : fitsCoord x = true ∧ fitsCoord y = true := Bool.and_eq_true_iff.1 h
  exact ⟨_, execScrollto_eq x y s, toInt_ofInt_of_fitsCoord hx, toInt_ofInt_of_fitsCoord hy, rfl⟩

/-- Settles O54: the fields of the word, one by one. -/
theorem statusWordHoldsItsFields : Obligations.StatusWordHoldsItsFields := fun s =>
  ⟨rfl, s.readStatus_bit0, s.readStatus_bit1, s.readStatus_bits_7_4, s.readStatus_bits_3_2, s.readStatus_bits_31_8⟩

/-- Settles O6: the step performs the fetched descriptor, if there is one. -/
theorem stepRunsTheDecodedCommand : Obligations.StepRunsTheDecodedCommand :=
  ⟨fun s _ _ hl hf hd hi => (step_of_fetch hl hf hd).trans (performDescriptor_of_decode hi s),
    fun _ hl hn => step_of_idle hl hn⟩

/-- Settles O53: the five clauses, the last three by `BUSY` and persistence. -/
theorem readoutReturnsTheFramebuffer : Obligations.ReadoutReturnsTheFramebuffer := by
  refine fun s => ⟨s.length_readout, fun i hi => s.getElem?_readout hi, fun hbusy hp => ?_, fun hbusy hp => ?_,
    act_readout_of_busy⟩
  · rw [act_readout_of_idle hbusy, State.afterReadout_of_persist hp]
  · rw [act_readout_of_idle hbusy, State.afterReadout_of_not_persist hp]
    exact ⟨s.forgetFb, rfl, rfl, s.forgetFb_fbCell⟩

end Sys2Proof.Machine
end

section
/-! PROOFS. The family of 60_exceptions.md: what raises each fault and which one a step reports (R172 to R175), fault
entry (R176), the halted engine (R177), the way out of it (R178) and illegal configurations (R182). -/

namespace Sys2Proof.Machine

/-! ### What raises a fault -/

/-- Fault entry clears `BUSY`, whether or not it was set. -/
@[simp] theorem State.accept_raiseFault (s : State) (c : Cause) : s.accept.raiseFault c = s.raiseFault c := rfl

theorem step_of_decode {s : State} {d : Descriptor} {i : Instr} (hl : s.cfg.legal = true)
    (hf : s.status.fault = false) (hd : s.fetch = some d) (hi : decode d = .ok i) : step s = exec i s.accept :=
  (step_of_fetch hl hf hd).trans (performDescriptor_of_decode hi s)

theorem step_of_decode_error {s : State} {d : Descriptor} {r : Illegal} (hl : s.cfg.legal = true)
    (hf : s.status.fault = false) (hd : s.fetch = some d) (hr : decode d = .error r) :
    step s = .next (s.raiseFault .illegalCmd) := by
  rw [step_of_fetch hl hf hd, performDescriptor, hr, State.accept_raiseFault]

/-- The opcodes of R87. -/
theorem opcodeField_patterns : opcodeField formatF.pattern = 1 ∧ opcodeField formatR.pattern = 2 ∧
    opcodeField formatB.pattern = 3 ∧ opcodeField formatS.pattern = 4 := by
  decide

/-- A descriptor that matches a row has the row's opcode. -/
theorem opcodeField_of_mem_rows {f : Format} {d : Descriptor} (hf : f ∈ [formatF, formatR, formatB, formatS])
    (h : spells f d = true) : opcodeField d = opcodeField f.pattern :=
  opcodeField_of_spells (opcode_covered_and_distinct.1 f hf) h

/-! ### A step that faults -/

/-- A step that sets `FAULT` is fault entry and nothing else (R176). -/
theorem step_sets_fault {s t : State} (h : step s = .next t) (hs : s.status.fault = false)
    (ht : t.status.fault = true) : ∃ c, t = s.raiseFault c := by
  obtain ⟨_, ⟨rfl, _⟩ | ⟨d, _, _, ⟨r, _, rfl⟩ | ⟨i, _, hexec⟩⟩⟩ := step_cases h
  · simp [hs] at ht
  · exact ⟨.illegalCmd, rfl⟩
  · obtain ⟨_, _, _, rfl⟩ | ⟨_, _, _, rfl⟩ | ⟨c, _, rfl⟩ := exec_cases hexec
    · simp [hs] at ht
    · simp [hs] at ht
    · exact ⟨c, rfl⟩

/-! ### The halted engine -/

@[simp] theorem State.afterReadout_status (s : State) : s.afterReadout.status = s.status := by
  unfold State.afterReadout
  split <;> rfl

/-- A READOUT leaves every field but the framebuffer's. -/
theorem State.afterReadout_eq_withFb (s : State) : ∃ fb draw, s.afterReadout = s.withFb fb draw := by
  cases hp : s.cfg.persist with
  | true => exact ⟨s.fb, s.fbDraw, State.afterReadout_of_persist hp⟩
  | false => exact ⟨[], s.fbDraw + 1, State.afterReadout_of_not_persist hp⟩

theorem eq_of_step_halted {s t : State} (hf : s.status.fault = true) (h : step s = .next t) : t = s := by
  cases (step_of_halted (step_cases h).1 hf).symm.trans h
  rfl

/-- A move of a halted engine other than RESET leaves `STATUS`. -/
theorem act_halted_status {a : Action} {s t : State} (hf : s.status.fault = true) (ha : a ≠ .reset)
    (h : act a s = .next t) : t.status = s.status := by
  cases a with
  | engine => rw [eq_of_step_halted hf h]
  | issue d => rw [eq_of_step_halted hf (State.issue_halted hf d ▸ h : step s = .next t)]
  | readout => rw [act_readout_eq h, State.afterReadout_status]
  | readStatus =>
    cases h
    rfl
  | reset => exact absurd rfl ha

/-- A move of a halted engine other than RESET is answered, changes at most the framebuffer, and that only by a READOUT
where contents do not persist (R177, R194). -/
theorem act_halted {a : Action} {s : State} (hl : s.cfg.legal = true) (hf : s.status.fault = true)
    (hbusy : s.status.busy = false) (ha : a ≠ .reset) :
    ∃ fb draw, act a s = .next (s.withFb fb draw) ∧
      ((s.cfg.persist = true ∨ a ≠ .readout) → s.withFb fb draw = s) := by
  cases a with
  | engine => exact ⟨s.fb, s.fbDraw, step_of_halted hl hf, fun _ => rfl⟩
  | issue d => exact ⟨s.fb, s.fbDraw, act_issue_halted hl hf d, fun _ => rfl⟩
  | readout =>
    obtain ⟨fb, draw, hfb⟩ := s.afterReadout_eq_withFb
    refine ⟨fb, draw, hfb ▸ act_readout_of_idle hbusy, fun hkeep => ?_⟩
    exact hfb ▸ State.afterReadout_of_persist (hkeep.resolve_right fun hne => hne rfl)
  | readStatus => exact ⟨s.fb, s.fbDraw, rfl, fun _ => rfl⟩
  | reset => exact absurd rfl ha

theorem actAll_cons {a : Action} {s t : State} (h : act a s = .next t) (moves : List Action) :
    actAll (a :: moves) s = actAll moves t := by
  simp only [actAll, h]

/-- So does every list of such moves, which keeps the framebuffer too if it has no READOUT or contents persist. -/
theorem actAll_halted {moves : List Action} {s : State} (hl : s.cfg.legal = true) (hf : s.status.fault = true)
    (hbusy : s.status.busy = false) (hmoves : ∀ a ∈ moves, a ≠ .reset) :
    ∃ fb draw, actAll moves s = .next (s.withFb fb draw) ∧
      ((s.cfg.persist = true ∨ .readout ∉ moves) → s.withFb fb draw = s) := by
  induction moves generalizing s with
  | nil => exact ⟨s.fb, s.fbDraw, rfl, fun _ => rfl⟩
  | cons a moves ih =>
    obtain ⟨ha, hrest⟩ := List.forall_mem_cons.1 hmoves
    obtain ⟨fb, draw, hact, hkeep⟩ := act_halted hl hf hbusy ha
    obtain ⟨fb', draw', hall, hkeep'⟩ := ih (s := s.withFb fb draw) hl hf hbusy hrest
    refine ⟨fb', draw', (actAll_cons hact moves).trans hall, fun hk => ?_⟩
    have hfirst : s.withFb fb draw = s := hkeep (hk.imp_right fun hn he => hn (he ▸ List.mem_cons_self ..))
    exact (hkeep' (hk.imp_right fun hn hm => hn (List.mem_cons_of_mem a hm))).trans hfirst

/-! ### Illegal configurations -/

/-- A configuration is refused iff R6 excludes it. -/
theorem Params.legal_eq_false_iff {p : Params} :
    p.legal = false ↔ p.w % 8 ≠ 0 ∨ p.h % 8 ≠ 0 ∨ p.wf = 0 ∨ p.hf = 0 := by
  simp only [Params.legal, Bool.and_eq_false_iff, beq_eq_false_iff_ne, decide_eq_false_iff_not, or_assoc,
    Nat.not_le, Nat.lt_one_iff]

theorem step_of_illegalConfiguration {s : State} (h : s.cfg.legal = false) :
    step s = .refused .illegalConfiguration := if_pos h

theorem instantiate_of_illegalConfiguration {p : Params} (h : p.legal = false) :
    instantiate p = .refused .illegalConfiguration := if_neg (by simp [h])

/-! ### The obligations -/

/-- Settles O5: a descriptor that matched a row would have the row's opcode and its fixed bits. -/
theorem illegalDescriptorsRaiseIllegalCmd : Obligations.IllegalDescriptorsRaiseIllegalCmd := by
  intro s d hl hf hd hbad
  obtain ⟨hF, hR, hB, hS⟩ := opcodeField_patterns
  have hnone : ∀ f ∈ [formatF, formatR, formatB, formatS], ¬ spells f d = true := by
    intro f hmem hspells
    have hopcode := opcodeField_of_mem_rows hmem hspells
    have hrow := spells_iff.1 hspells
    simp only [List.mem_cons, List.not_mem_nil, or_false] at hmem
    obtain rfl | rfl | rfl | rfl := hmem
    · simp [hopcode, hF, hrow] at hbad
    · simp [hopcode, hR, hrow] at hbad
    · simp [hopcode, hB, hrow] at hbad
    · simp [hopcode, hS, hrow] at hbad
  obtain ⟨r, hr⟩ := decode_error_iff.2 hnone
  exact step_of_decode_error hl hf hd hr

/-- Settles O20: an empty atlas is a special case of a footprint that ends past the atlas. -/
theorem blitOutOfTheAtlasRaisesAtlasRange : Obligations.BlitOutOfTheAtlasRaisesAtlasRange :=
  ⟨fun _ _ _ _ _ _ _ _ _ hk hout => execBlit_atlasRange hk (Nat.not_lt.2 hout),
    fun _ _ _ _ _ _ _ _ _ hk hempty => execBlit_atlasRange hk (Nat.not_lt.2 (hempty.trans_le (Nat.zero_le _)))⟩

/-- Settles O29: the step is fault entry, and the state it leaves is halted. -/
theorem faultEntryChangesOnlyStatus : Obligations.FaultEntryChangesOnlyStatus := by
  intro s t h hs ht
  obtain ⟨c, rfl⟩ := step_sets_fault h hs ht
  exact ⟨⟨c, rfl⟩, core_run_of_halted (step_cases h).1 ht⟩

/-- Settles O30: the moves change no more than the framebuffer. -/
theorem haltedEngineExecutesNothing : Obligations.HaltedEngineExecutesNothing := by
  intro s moves hl hf hbusy hmoves
  obtain ⟨fb, draw, hall, hkeep⟩ := actAll_halted hl hf hbusy hmoves
  exact ⟨_, hall, rfl, rfl, rfl, rfl, fun hk cell => by rw [hkeep hk]⟩

/-- Settles O31: the moves change no more than the framebuffer. -/
theorem haltedMovesLeaveTheWholeState : Obligations.HaltedMovesLeaveTheWholeState := by
  intro s moves hl hf hbusy hmoves
  obtain ⟨fb, draw, hall, hkeep⟩ := actAll_halted hl hf hbusy hmoves
  exact ⟨_, hall, rfl, hkeep⟩

/-- Settles O32: every other move leaves `STATUS`, and RESET writes it. -/
theorem onlyResetClearsAFault : Obligations.OnlyResetClearsAFault := by
  refine ⟨fun a s t h hs ht => ?_, fun s => ⟨s.applyReset, rfl, rfl, rfl, Nat.succ_ne_self s.fbDraw⟩⟩
  by_contra ha
  rw [act_halted_status hs ha h, hs] at ht
  cases ht

/-- Settles O19: the scale is tested before the tile. -/
theorem blitOfScaleZeroRaisesBadScale : Obligations.BlitOfScaleZeroRaisesBadScale :=
  execBlit_badScale

/-- Settles O21: the descriptor is decoded before the scale is tested, and the scale before the tile. -/
theorem faultPriorityIsIllegalThenScaleThenRange : Obligations.FaultPriorityIsIllegalThenScaleThenRange := by
  refine ⟨fun s hl hf => step_of_halted hl hf, fun s d hl hf hd => ⟨fun r hr => ?_, ?_, ?_⟩⟩
  · exact step_of_decode_error hl hf hd hr
  · intro x y tile code mx my off hi
    exact (step_of_decode hl hf hd hi).trans (execBlit_badScale x y tile code mx my off s.accept)
  · intro x y tile code mx my k off hi hk hout
    exact (step_of_decode hl hf hd hi).trans (execBlit_atlasRange hk hout)

/-- Settles O57: R6 is tested by `instantiate` and before anything else in a step. -/
theorem illegalConfigurationsAreRefused : Obligations.IllegalConfigurationsAreRefused := by
  intro p hp
  have hlegal : p.legal = false := Params.legal_eq_false_iff.2 hp
  refine ⟨instantiate_of_illegalConfiguration hlegal, fun s hs => ?_⟩
  exact step_of_illegalConfiguration (hs ▸ hlegal)

end Sys2Proof.Machine
end

section
/-! PROOFS. The family of 70_reset_and_hazards.md: what RESET leaves (R190, R191), and a stream that runs to its end or
to a fault (R28, R196). -/

namespace Sys2Proof.Machine

/-! ### RESET (R190, R191) -/

@[simp] theorem State.applyReset_readStatus (s : State) : s.applyReset.readStatus = 0 := by
  rw [State.readStatus, State.applyReset_status]
  decide

/-- A RESET leaves every cell unspecified afresh (R190), as forgetting the framebuffer does. -/
@[simp] theorem State.applyReset_fbCell (s : State) (cell : Nat) :
    s.applyReset.fbCell cell = Config.freeCell s.applyReset.fbDraw cell :=
  s.forgetFb_fbCell cell

/-! ### The run of a stream (R28, R196) -/

theorem State.final_iff {s : State} :
    s.final = true ↔ s.cp = s.stream.length ∧ s.status.busy = false ∧ s.status.fault = false := by
  simp [State.final, and_assoc]

/-- While commands are left the engine fetches one (R28). -/
theorem exists_fetch_of_lt {s : State} (h : s.cp < s.stream.length) : ∃ d, s.fetch = some d :=
  ⟨s.stream[s.cp], List.getElem?_eq_getElem h⟩

/-- A step of an unfaulted engine with a command left is answered: it completes the command, or it faults. -/
theorem step_of_cp_lt {s : State} (hl : s.cfg.legal = true) (hf : s.status.fault = false)
    (hcp : s.cp < s.stream.length) :
    ∃ t, step s = .next t ∧ t.cfg = s.cfg ∧ t.stream = s.stream ∧ t.status.busy = false ∧
      ((t.status.fault = false ∧ t.cp = s.cp + 1) ∨ t.status.fault = true) := by
  obtain ⟨d, hd⟩ := exists_fetch_of_lt hcp
  obtain ⟨t, ht, hcfg, hstream, hbusy, _, hend⟩ := performDescriptor_cases d s
  exact ⟨t, (step_of_fetch hl hf hd).trans ht, hcfg, hstream, hbusy,
    hend.imp (fun ⟨hft, hcpt⟩ => ⟨hft.trans hf, hcpt⟩) And.left⟩

/-- An unfaulted engine with `n` commands left has halted or is done after `n` steps: induction on `n`, where a command
that completes leaves one less and a fault ends the run. -/
theorem run_ends_halted_or_final {n : Nat} {s : State} (hl : s.cfg.legal = true) (hf : s.status.fault = false)
    (hbusy : s.status.busy = false) (hn : s.cp + n = s.stream.length) :
    ∃ t, Host.Core.run core n s = .next t ∧ (t.halted = true ∨ t.final = true) := by
  induction n generalizing s with
  | zero => exact ⟨s, rfl, .inr (State.final_iff.2 ⟨hn, hbusy, hf⟩)⟩
  | succ n ih =>
    obtain ⟨t, hstep, hcfg, hstream, hbusyt, hend⟩ := step_of_cp_lt hl hf (by omega)
    rw [core_run_succ hstep]
    obtain ⟨hft, hcpt⟩ | hft := hend
    · exact ih (hcfg ▸ hl) hft hbusyt (by rw [hcpt, hstream]; omega)
    · exact ⟨t, core_run_of_halted (hcfg ▸ hl) hft n, .inl hft⟩

/-! ### The obligations -/

/-- Settles O40: a halted engine stays as it is, and an unfaulted one completes a command at every step or faults. -/
theorem everyStreamRunsToItsEnd : Obligations.EveryStreamRunsToItsEnd := by
  intro s hs
  cases hf : s.status.fault with
  | true => exact ⟨s, core_run_of_halted hs.legal hf _, .inl hf⟩
  | false => exact run_ends_halted_or_final hs.legal hf hs.idle (Nat.add_sub_of_le hs.cpBound)

/-- Settles O55: the new draw is the successor of the old one. -/
theorem resetLeavesTheResetState : Obligations.ResetLeavesTheResetState := fun s =>
  ⟨s.applyReset, rfl, s.applyReset_scrollX, s.applyReset_scrollY, s.applyReset_readStatus, s.applyReset_cp,
    s.applyReset_stream, s.applyReset_cfg, Nat.succ_ne_self s.fbDraw, s.applyReset_fbCell⟩

end Sys2Proof.Machine
end

section
/-! PROOFS. The family of the whole-machine invariant (10_state.md sections 2 and 3): it holds at reset, every step and
every host action keeps it, and so every reachable state meets it. Between hand-over and execution an ISSUE breaks it,
because `BUSY` is 1 there; `State.Pending` says what holds at that point instead. The worked encodings of
30_encoding.md section 6 stand at the end. -/

namespace Sys2Proof.Machine

/-! ### The framebuffer list -/

/-- What the invariant asks of a framebuffer list: canonical, on the canvas, without a written 255 (R22, R53). -/
structure Memory.Drawn (p : Params) (m : Memory) : Prop where
  canonical : m.wf = true
  within : m.within p.cells = true
  written : ∀ c ∈ m, c.2 ≠ transparent

theorem State.Inv.drawn {s : State} (hs : s.Inv) : s.fb.Drawn s.cfg := ⟨hs.canonical, hs.within, hs.written⟩

theorem Memory.drawn_nil (p : Params) : Memory.Drawn p [] := ⟨rfl, rfl, by simp⟩

/-- Painting by colours other than 255 keeps it. -/
theorem Memory.Drawn.paint {p : Params} {m : Memory} {pixel : Int → Int → Option Byte} (hm : m.Drawn p)
    (hpixel : ∀ px py v, pixel px py = some v → v ≠ transparent) : (Machine.paint p pixel m).Drawn p where
  canonical := paint_wf hm.canonical
  within := paint_within hm.within
  written := fun c hc => by
    obtain ⟨_, hcolor⟩ | hold := mem_paint hc
    · exact hpixel _ _ _ hcolor
    · exact hm.written c hold

/-- The invariant looks at the framebuffer through `Memory.Drawn` alone, and never at the draw counter. -/
theorem State.Inv.withFb {s : State} {fb : Memory} (hs : s.Inv) (hfb : fb.Drawn s.cfg) (draw : Nat) :
    (s.withFb fb draw).Inv :=
  { legal := hs.legal, idle := hs.idle, coherent := hs.coherent, cpBound := hs.cpBound, faultAt := hs.faultAt,
    canonical := hfb.canonical, within := hfb.within, written := hfb.written }

/-! ### `STATUS` -/

theorem Status.coherent_of_unfaulted {st : Status} (hf : st.fault = false) (hc : st.cause = 0) : st.Coherent :=
  ⟨fun _ => hc, fun h => absurd h (by simp [hf])⟩

theorem Status.faulted_coherent (c : Cause) : (Status.faulted c).Coherent := ⟨nofun, fun _ => ⟨c, rfl⟩⟩

/-! ### A state with a command to run -/

/-- An unfaulted state with a descriptor waiting at `cp`, good but for `BUSY`, which an ISSUE has set. -/
structure State.Pending (s : State) : Prop where
  legal : s.cfg.legal = true
  unfaulted : s.status.fault = false
  noCause : s.status.cause = 0
  waiting : s.cp < s.stream.length
  drawn : s.fb.Drawn s.cfg

section Pending
variable {s : State}

theorem State.Inv.pending (hs : s.Inv) (hf : s.status.fault = false) (hcp : s.cp < s.stream.length) : s.Pending :=
  ⟨hs.legal, hf, hs.coherent.1 hf, hcp, hs.drawn⟩

/-- ISSUE puts the descriptor at `cp`, wherever in the stream that is. -/
theorem State.Inv.issue_pending (hs : s.Inv) (hf : s.status.fault = false) (d : Descriptor) : (s.issue d).Pending where
  legal := by simpa using hs.legal
  unfaulted := by simpa using hf
  noCause := by simpa using hs.coherent.1 hf
  waiting := fetch_lt (fetch_issue hf hs.cpBound d)
  drawn := by simpa using hs.drawn

theorem State.Pending.accept (hs : s.Pending) : s.accept.Pending :=
  ⟨hs.legal, hs.unfaulted, hs.noCause, hs.waiting, hs.drawn⟩

theorem State.Pending.paint (hs : s.Pending) {pixel : Int → Int → Option Byte}
    (hpixel : ∀ px py v, pixel px py = some v → v ≠ transparent) : (s.paint pixel).Pending :=
  ⟨hs.legal, hs.unfaulted, hs.noCause, hs.waiting, hs.drawn.paint hpixel⟩

theorem State.Pending.scroll (hs : s.Pending) (scrollX scrollY : BitVec 16) :
    ({ s with scrollX := scrollX, scrollY := scrollY } : State).Pending :=
  ⟨hs.legal, hs.unfaulted, hs.noCause, hs.waiting, hs.drawn⟩

/-- A command that completes leaves a good state: `cp` moves at most to the end of the stream. -/
theorem State.Pending.complete_inv (hs : s.Pending) : s.complete.Inv where
  legal := hs.legal
  idle := rfl
  coherent := Status.coherent_of_unfaulted hs.unfaulted hs.noCause
  cpBound := hs.waiting
  faultAt := fun hf => absurd hf (by simp [hs.unfaulted])
  canonical := hs.drawn.canonical
  within := hs.drawn.within
  written := hs.drawn.written

/-- A command that faults leaves a good state: `cp` stays at it. -/
theorem State.Pending.raiseFault_inv (hs : s.Pending) (c : Cause) : (s.raiseFault c).Inv where
  legal := hs.legal
  idle := rfl
  coherent := Status.faulted_coherent c
  cpBound := hs.waiting.le
  faultAt := fun _ => hs.waiting
  canonical := hs.drawn.canonical
  within := hs.drawn.within
  written := hs.drawn.written

theorem State.Pending.exec_inv {t : State} {i : Instr} (hs : s.Pending) (h : exec i s = .next t) : t.Inv := by
  obtain ⟨pixel, hpixel, _, rfl⟩ | ⟨x, y, _, rfl⟩ | ⟨c, _, rfl⟩ := exec_cases h
  · exact (hs.paint hpixel).complete_inv
  · exact (hs.scroll _ _).complete_inv
  · exact hs.raiseFault_inv c

/-- The step that runs the waiting command restores the invariant, whether or not `BUSY` was set. -/
theorem State.Pending.step_inv {t : State} (hs : s.Pending) (h : step s = .next t) : t.Inv := by
  obtain ⟨d, hd⟩ := exists_fetch_of_lt hs.waiting
  obtain ⟨_, ⟨_, hstill⟩ | ⟨_, _, _, ⟨_, _, rfl⟩ | ⟨i, _, hexec⟩⟩⟩ := step_cases h
  · simp [hs.unfaulted, hd] at hstill
  · exact hs.accept.raiseFault_inv .illegalCmd
  · exact hs.accept.exec_inv hexec

end Pending

/-! ### The moves of the system -/

theorem step_keeps_inv {s t : State} (hs : s.Inv) (h : step s = .next t) : t.Inv := by
  obtain ⟨_, ⟨rfl, _⟩ | ⟨d, hf, hd, _⟩⟩ := step_cases h
  · exact hs
  · exact (hs.pending hf (fetch_lt hd)).step_inv h

theorem act_issue_keeps_inv {s t : State} {d : Descriptor} (hs : s.Inv) (h : act (.issue d) s = .next t) : t.Inv := by
  cases hf : s.status.fault with
  | true =>
    cases (act_issue_halted hs.legal hf d).symm.trans h
    exact hs
  | false => exact (hs.issue_pending hf d).step_inv h

theorem State.Inv.afterReadout {s : State} (hs : s.Inv) : s.afterReadout.Inv := by
  cases hp : s.cfg.persist with
  | true => rwa [State.afterReadout_of_persist hp]
  | false =>
    rw [State.afterReadout_of_not_persist hp]
    exact hs.withFb (Memory.drawn_nil _) _

/-- A legal configuration right after reset (R40 to R43). -/
theorem State.ofParams_inv {p : Params} (hp : p.legal = true) : (State.ofParams p).Inv :=
  { legal := hp, idle := rfl, coherent := Status.coherent_of_unfaulted rfl rfl, cpBound := Nat.le_refl 0,
    faultAt := nofun, canonical := rfl, within := rfl, written := nofun }

/-- RESET leaves the state that its configuration starts in, but for the draw counter (R190). -/
theorem State.applyReset_eq_withFb (s : State) :
    s.applyReset = (State.ofParams s.cfg).withFb [] (s.fbDraw + 1) := rfl

theorem State.Inv.applyReset {s : State} (hs : s.Inv) : s.applyReset.Inv :=
  s.applyReset_eq_withFb ▸ (State.ofParams_inv hs.legal).withFb (Memory.drawn_nil _) _

theorem act_keeps_inv {a : Action} {s t : State} (hs : s.Inv) (h : act a s = .next t) : t.Inv := by
  cases a with
  | engine => exact step_keeps_inv hs h
  | issue d => exact act_issue_keeps_inv hs h
  | readout => exact act_readout_eq h ▸ hs.afterReadout
  | readStatus =>
    cases h
    exact hs
  | reset =>
    cases h
    exact hs.applyReset

theorem instantiate_eq_next {p : Params} {s : State} (h : instantiate p = .next s) :
    p.legal = true ∧ s = State.ofParams p := by
  unfold instantiate at h
  split at h
  · rename_i hp
    cases h
    exact ⟨hp, rfl⟩
  · cases h

/-! ### The worked encodings -/

theorem decode_of_encode_eq {i : Instr} {d : Descriptor} (hi : i.wellFormed = true) (hd : encode i = d) :
    decode d = .ok i := hd ▸ decode_encode hi

/-! ### The obligations -/

/-- Settles O37: the engine does nothing, or it runs the command that waits at `cp`. -/
theorem everyStepKeepsTheInvariant : Obligations.EveryStepKeepsTheInvariant := fun _ _ => step_keeps_inv

/-- Settles O38: the moves one by one; an ISSUE passes through a state with `BUSY = 1`. -/
theorem everyMoveKeepsTheInvariant : Obligations.EveryMoveKeepsTheInvariant := fun _ _ _ => act_keeps_inv

/-- Settles O39: by induction on the moves that lead to the state. -/
theorem everyReachableStateMeetsTheInvariant : Obligations.EveryReachableStateMeetsTheInvariant := by
  intro s h
  induction h with
  | start p hp => exact State.ofParams_inv hp
  | move a _ hact ih => exact act_keeps_inv ih hact

/-- Settles O36: the configuration of log 2 is legal, and `instantiate` refuses any that is not. -/
theorem resetStateMeetsTheInvariant : Obligations.ResetStateMeetsTheInvariant := by
  refine ⟨State.ofParams_inv (by decide), fun p s h => ?_⟩
  obtain ⟨hp, rfl⟩ := instantiate_eq_next h
  exact State.ofParams_inv hp

/-- Settles O1: each of the four descriptors is the encoding of its command, and 0 is the opcode of none. -/
theorem workedEncodingsDecode : Obligations.WorkedEncodingsDecode :=
  ⟨decode_of_encode_eq (by decide) (by decide), decode_of_encode_eq (by decide) (by decide),
    decode_of_encode_eq (by decide) (by decide), decode_of_encode_eq (by decide) (by decide), by decide⟩

end Sys2Proof.Machine
end
